-- ==== Sys2Proof/Word.lean ====
section
/-! DEFINITION. The word types of the block: bytes, the 16-bit fields and the 32-bit header words. -/

namespace Sys2Proof

/-- A byte: an unsigned 8-bit value (00_scope.md R17). -/
abbrev Byte := BitVec 8

/-- A 16-bit field: `len16` and the drop counter (30_encoding.md R60, R64; 10_state.md R23). -/
abbrev Half := BitVec 16

/-- A request or response header word (00_scope.md R16; 30_encoding.md R60, R64). -/
abbrev Word := BitVec 32

end Sys2Proof
end

