-- ==== Sys2Proof/Config.lean ====
section
/-! DEFINITION. The parameters of the block (00_scope.md section 3). All but `rbN` have the value the spec
states; `rbN` is OPEN in the spec and is a free value here. -/

namespace Sys2Proof.Config

/-- MAX_PAYLOAD (00_scope.md R7). -/
def maxPayload : Nat := 254

/-- MAX_UNIT = MAX_PAYLOAD + 1 (00_scope.md R8). -/
def maxUnit : Nat := 255

/-- DEC_CAP, the decoder's output capacity (00_scope.md R9). -/
def decCap : Nat := 255

/-- MAX_RUN, the longest run of non-zero bytes one code byte covers (00_scope.md R10). -/
def maxRun : Nat := 254

/-- MAX_FRAME, the longest frame FC_ENCODE can produce (00_scope.md R11). -/
def maxFrame : Nat := 258

/-- R_ROWS, the bitmap's row count (00_scope.md R14). -/
def rRows : Nat := 240

/-- W_ROW, the bitmap's bytes per row (00_scope.md R14). -/
def wRow : Nat := 50

/-- BITMAP_BYTES = R_ROWS × W_ROW (00_scope.md R14). -/
def bitmapBytes : Nat := 12000

/-- SCREEN_BUFFER_MAX_PACKETS (00_scope.md R15). -/
def screenBufferMaxPackets : Nat := 49

/-- The saturation value of the drop counter (10_state.md R23). -/
def dropsMax : Nat := 65535

/-- Whether `n` is a legal number of ring slots (00_scope.md R12). -/
abbrev legalSlots (n : Nat) : Prop := 2 ≤ n ∧ n ≤ 65536

/-- The width of a cursor of a ring with `n` slots, in bits: max(1, ⌈log2 n⌉) (10_state.md R22). -/
def cursorWidth (n : Nat) : Nat := max 1 (Nat.clog 2 n)

/-- The free value behind `rbN`: how many slots the block was built with, less two. It has no body, so no proof can
see it (DESIGN CHOICE, log 1; 00_scope.md R12 leaves RB_N OPEN). -/
opaque slotsBeyondTwo : Fin 65535

/-- RB_N of the block that `State.reset` describes: some number in 2 … 65536 (00_scope.md R12). -/
def rbN : Nat := slotsBeyondTwo.val + 2

end Sys2Proof.Config
end

