-- ==== Sys2Proof/Syntax.lean ====
section
/-! DEFINITION. The instructions: one constructor per row of spec/opcode_table.json, with the operands of
30_encoding.md R60 to R62 and R74. The data stream is an operand (R61, R74), so `len16` of an operation that
carries data is that operand's length and is no field of its own (log 10). -/

namespace Sys2Proof

/-- One operation with its operands (30_encoding.md R62, R74). -/
inductive Instr where
  /-- RB_PUSH: `imm8` is the byte to push (41_ring_buffer.md R111). -/
  | rbPush (v : Byte)
  /-- RB_POP (R112). -/
  | rbPop
  /-- RB_READ_EXACT: `len16` is the byte count (R113). -/
  | rbReadExact (n : Half)
  /-- RB_SIZE (R114). -/
  | rbSize
  /-- RB_REMAINING (R115). -/
  | rbRemaining
  /-- RB_DROPS (R116). -/
  | rbDrops
  /-- FC_ENCODE: `imm8` is the raw command byte, the data stream is the payload (40_frame_codec.md R94). -/
  | fcEncode (cmd : Byte) (payload : List Byte)
  /-- FC_DECODE: the data stream is the frame, delimiter included (R95). -/
  | fcDecode (frame : List Byte)
  /-- BC_CHUNK: the data stream is the row list, then the bitmap, row-major (42_chunker.md R133). -/
  | bcChunk (rows : List Byte) (bitmap : List Byte)
  /-- BC_UNCHUNK: the data stream is the concatenated payloads (R137). -/
  | bcUnchunk (payload : List Byte)
  deriving DecidableEq, Repr

end Sys2Proof
end

