-- ==== Sys2Proof/WellFormed.lean ====
section
/-! DEFINITION. Which instructions a request can carry: a data stream's length fits `len16`, and a bitmap has its
12000 bytes (30_encoding.md R60, R61; 00_scope.md R14). -/

namespace Sys2Proof

/-- A length that the 16-bit field `len16` can hold (30_encoding.md R60). -/
def fitsLen16 (n : Nat) : Bool := decide (n < 65536)

/-- The operands are ones a request header and data stream can carry (30_encoding.md R60, R61). -/
def Instr.wellFormed : Instr → Bool
  | .rbPush _ => true
  | .rbPop => true
  | .rbReadExact _ => true
  | .rbSize => true
  | .rbRemaining => true
  | .rbDrops => true
  | .fcEncode _ payload => fitsLen16 payload.length
  | .fcDecode frame => fitsLen16 frame.length
  | .bcChunk rows bitmap => fitsLen16 rows.length && decide (bitmap.length = Config.bitmapBytes)
  | .bcUnchunk payload => fitsLen16 payload.length

end Sys2Proof
end

