-- ==== Sys2Proof/Decode.lean ====
section
/-! DEFINITION. Requests, the decoder (30_encoding.md R60 to R63, R76; 20_memory.md R54), the encoder written from
the same table, the byte order of a header on a byte-wide channel (20_memory.md R43), and host programs
(30_encoding.md R74, R75). -/

namespace Sys2Proof

/-- A request: a header word paired with its data stream (30_encoding.md R60, R61; 20_memory.md R54). -/
structure Request where
  header : Word
  data   : List Byte
  deriving DecidableEq, Repr

/-- The ten operations, as the opcode map names them (30_encoding.md R62). -/
inductive Op where
  | rbPush | rbPop | rbReadExact | rbSize | rbRemaining | rbDrops
  | fcEncode | fcDecode | bcChunk | bcUnchunk
  deriving DecidableEq, Repr

/-- Why a request is no instruction. -/
inductive Reject where
  /-- The header selects no row: the block answers ILLEGAL_OP (30_encoding.md R63). -/
  | illegalOp
  /-- The header is legal and the data length differs from the declared length (20_memory.md R54). -/
  | dataLengthMismatch
  deriving DecidableEq, Repr

/-- Why a sequence of bytes from a byte-wide channel is no instruction. -/
inductive ByteReject where
  /-- Fewer than the four bytes of a header (20_memory.md R43). -/
  | headerIncomplete
  /-- The request the bytes hold is rejected. -/
  | request (r : Reject)
  deriving DecidableEq, Repr

/-! ## Header fields (30_encoding.md R60) -/

/-- `opcode`, bits [7:0]. -/
def Word.opcode (h : Word) : Byte := h.extractLsb' 0 8

/-- `imm8`, bits [15:8]. -/
def Word.imm8 (h : Word) : Byte := h.extractLsb' 8 8

/-- `len16`, bits [31:16]. -/
def Word.len16 (h : Word) : Half := h.extractLsb' 16 16

/-- A header word from its three fields. -/
def headerOf (opcode imm8 : Byte) (len16 : Half) : Word := len16 ++ (imm8 ++ opcode)

/-! ## The opcode map (30_encoding.md R62) -/

/-- One row of the opcode map. -/
structure OpRow where
  op      : Op
  pattern : Word
  mask    : Word
  deriving DecidableEq, Repr

/-- The opcode map, row by row as 30_encoding.md R62 gives it (its `match` column is `pattern`). -/
def opcodeMap : List OpRow :=
  [ ⟨.rbPush,      0x00000001#32, 0xFFFF00FF#32⟩,
    ⟨.rbPop,       0x00000002#32, 0xFFFFFFFF#32⟩,
    ⟨.rbReadExact, 0x00000003#32, 0x0000FFFF#32⟩,
    ⟨.rbSize,      0x00000004#32, 0xFFFFFFFF#32⟩,
    ⟨.rbRemaining, 0x00000005#32, 0xFFFFFFFF#32⟩,
    ⟨.rbDrops,     0x00000006#32, 0xFFFFFFFF#32⟩,
    ⟨.fcEncode,    0x00000010#32, 0x000000FF#32⟩,
    ⟨.fcDecode,    0x00000011#32, 0x0000FFFF#32⟩,
    ⟨.bcChunk,     0x00000020#32, 0x0000FFFF#32⟩,
    ⟨.bcUnchunk,   0x00000021#32, 0x0000FFFF#32⟩ ]

/-- A header selects a row when its masked bits equal the row's pattern (30_encoding.md R62). -/
def OpRow.selects (r : OpRow) (h : Word) : Bool := h &&& r.mask == r.pattern

/-- The header decoding procedure (30_encoding.md R76); `none` is ILLEGAL (R63). -/
def decodeHeader (h : Word) : Option Op := (opcodeMap.find? (·.selects h)).map (·.op)

/-- How many data-stream bytes a legal header declares (30_encoding.md R61). -/
def declaredLength : Op → Word → Nat
  | .rbPush, _ => 0
  | .rbPop, _ => 0
  | .rbReadExact, _ => 0
  | .rbSize, _ => 0
  | .rbRemaining, _ => 0
  | .rbDrops, _ => 0
  | .fcEncode, h => h.len16.toNat
  | .fcDecode, h => h.len16.toNat
  | .bcChunk, h => h.len16.toNat + Config.bitmapBytes
  | .bcUnchunk, h => h.len16.toNat

/-- The instruction of an operation, with its operands taken from the header and the data stream (30_encoding.md R60,
R61): BC_CHUNK's data is the row list and then the bitmap. -/
def instrOf : Op → Word → List Byte → Instr
  | .rbPush, h, _ => .rbPush h.imm8
  | .rbPop, _, _ => .rbPop
  | .rbReadExact, h, _ => .rbReadExact h.len16
  | .rbSize, _, _ => .rbSize
  | .rbRemaining, _, _ => .rbRemaining
  | .rbDrops, _, _ => .rbDrops
  | .fcEncode, h, d => .fcEncode h.imm8 d
  | .fcDecode, _, d => .fcDecode d
  | .bcChunk, h, d => .bcChunk (d.take h.len16.toNat) (d.drop h.len16.toNat)
  | .bcUnchunk, _, d => .bcUnchunk d

/-- Whether a data stream has `n` bytes, found by walking it once. -/
def hasLength : List Byte → Nat → Bool
  | [], n => n == 0
  | _ :: _, 0 => false
  | _ :: t, n + 1 => hasLength t n

/-- The decoder: total on every request. The header alone decides ILLEGAL_OP, before the data is looked at
(60_exceptions.md R154); then the data must have the declared length (20_memory.md R54). -/
def decode (r : Request) : Except Reject Instr :=
  match decodeHeader r.header with
  | none => .error .illegalOp
  | some op =>
    if hasLength r.data (declaredLength op r.header) then .ok (instrOf op r.header r.data)
    else .error .dataLengthMismatch

/-! ## The encoder -/

/-- The request that carries an instruction (30_encoding.md R60 to R62, R74). -/
def encode : Instr → Request
  | .rbPush v => ⟨headerOf 0x01#8 v 0#16, []⟩
  | .rbPop => ⟨headerOf 0x02#8 0#8 0#16, []⟩
  | .rbReadExact n => ⟨headerOf 0x03#8 0#8 n, []⟩
  | .rbSize => ⟨headerOf 0x04#8 0#8 0#16, []⟩
  | .rbRemaining => ⟨headerOf 0x05#8 0#8 0#16, []⟩
  | .rbDrops => ⟨headerOf 0x06#8 0#8 0#16, []⟩
  | .fcEncode cmd p => ⟨headerOf 0x10#8 cmd (BitVec.ofNat 16 p.length), p⟩
  | .fcDecode f => ⟨headerOf 0x11#8 0#8 (BitVec.ofNat 16 f.length), f⟩
  | .bcChunk rows bm => ⟨headerOf 0x20#8 0#8 (BitVec.ofNat 16 rows.length), rows ++ bm⟩
  | .bcUnchunk p => ⟨headerOf 0x21#8 0#8 (BitVec.ofNat 16 p.length), p⟩

/-! ## A byte-wide channel (20_memory.md R43) -/

/-- A header word as the four bytes a byte-wide channel carries, bits [7:0] first. -/
def Word.toBytes (h : Word) : List Byte :=
  [h.extractLsb' 0 8, h.extractLsb' 8 8, h.extractLsb' 16 8, h.extractLsb' 24 8]

/-- A request as bytes: the header, little-endian, then the data stream. -/
def Request.toBytes (r : Request) : List Byte := r.header.toBytes ++ r.data

/-- The request that the bytes of one transfer hold; `none` when the header has not arrived whole. -/
def Request.ofBytes : List Byte → Option Request
  | b0 :: b1 :: b2 :: b3 :: data => some ⟨b3 ++ (b2 ++ (b1 ++ b0)), data⟩
  | _ => none

/-- The decoder on the bytes of one transfer: total on any bytes, rejecting by name. -/
def decodeBytes (bs : List Byte) : Except ByteReject Instr :=
  match Request.ofBytes bs with
  | none => .error .headerIncomplete
  | some r =>
    match decode r with
    | .ok i => .ok i
    | .error e => .error (.request e)

/-- An instruction as the bytes of one transfer. -/
def encodeBytes (i : Instr) : List Byte := (encode i).toBytes

/-! ## Words numbered as spec/opcode_table.json numbers them -/

/-- The low `n` bytes of `w`, least significant first. -/
def bytesOfNat : Nat → Nat → List Byte
  | 0, _ => []
  | n + 1, w => BitVec.ofNat 8 w :: bytesOfNat n (w / 256)

/-- The request whose bits are `w`, bit 0 the least significant bit of the header; the header is 32 bits, later bits
are the data stream's bytes, and every bit from `nbits` up is zero. A legal header gets the data bytes it declares. -/
def tableRequest (nbits w : Nat) : Request :=
  let bits := w % 2 ^ nbits
  let header := BitVec.ofNat 32 bits
  match decodeHeader header with
  | none => ⟨header, []⟩
  | some op => ⟨header, bytesOfNat (declaredLength op header) (bits / 2 ^ 32)⟩

/-- The instruction the decoder reads from the bits `w` of an opcode-table row. -/
def decodeTableWord (nbits w : Nat) : Option Instr :=
  match decodeBytes (tableRequest nbits w).toBytes with
  | .ok i => some i
  | .error _ => none

/-! ## Host programs (30_encoding.md R74, R75) -/

/-- RB_PUSHS, the one pseudo-instruction: one RB_PUSH per byte, in order (30_encoding.md R75). -/
def rbPushs (bs : List Byte) : List Instr := bs.map .rbPush

/-- What one line of a host program asks for: an operation (30_encoding.md R74) or the pseudo-instruction RB_PUSHS
(R75). -/
inductive HostOp where
  | instr (i : Instr)
  | rbPushs (bs : List Byte)
  deriving DecidableEq, Repr

/-- The operations a line stands for, in order: itself, or one RB_PUSH per byte (30_encoding.md R74, R75). -/
def HostOp.expand : HostOp → List Instr
  | .instr i => [i]
  | .rbPushs bs => Sys2Proof.rbPushs bs

end Sys2Proof
end

