-- ==== Sys2Proof/Machine/State.lean ====
section
/-! DEFINITION. The state of the block and of its two interfaces, as plain data, the reasons a step can stop, and the
state after reset (10_state.md; 20_memory.md sections 4 and 5; 70_reset_and_hazards.md R170). -/

namespace Sys2Proof.Machine

/-- The two execution contexts that issue requests (20_memory.md R48; 60_exceptions.md R161). -/
inductive Agent where
  | producer
  | consumer
  deriving DecidableEq, Repr

/-- The closed enumeration of command tags (10_state.md R30). -/
inductive CommandTag where
  | invalid
  | screenBuffer
  | ack
  deriving DecidableEq, Repr

/-- A packet as the block's operations exchange it: tag, raw command byte and payload (10_state.md R29;
40_frame_codec.md R92). -/
structure Packet where
  command : CommandTag
  cmdRaw  : Byte
  payload : List Byte
  deriving DecidableEq, Repr

/-- The nine statuses a response can carry (30_encoding.md R65; 60_exceptions.md R152). -/
inductive Status where
  /-- The operation succeeded. -/
  | ok
  /-- RB_POP on an empty buffer, RB_READ_EXACT on a short one. Named `none` in the spec; not an error (R155). -/
  | noData
  /-- FC_DECODE (40_frame_codec.md R86). -/
  | truncated
  /-- FC_DECODE (40_frame_codec.md R87). -/
  | payloadOverflow
  /-- FC_ENCODE (40_frame_codec.md R94). -/
  | payloadTooLarge
  /-- BC_CHUNK, BC_UNCHUNK (42_chunker.md R134, R136). -/
  | badRowCount
  /-- BC_CHUNK, BC_UNCHUNK (42_chunker.md R134, R136). -/
  | badRowIndex
  /-- BC_UNCHUNK (42_chunker.md R136). -/
  | badLength
  /-- A header that selects no operation (30_encoding.md R63). -/
  | illegalOp
  deriving DecidableEq, Repr

/-- A response: the fields of its header word and its data stream (30_encoding.md R64, R67). The header's reserved bits
are not a field: they are always 0. `Response.header` in Flags.lean is the word itself. -/
structure Response where
  status : Status
  tag    : CommandTag
  aux8   : Byte
  len16  : Half
  data   : List Byte
  deriving DecidableEq, Repr

/-- One agent's side of the interface: the requests it has issued and the block has not linearized yet, oldest first
(20_memory.md R49, R54), and the response its host has not taken yet (R55). `received` records the responses the host
has taken, oldest first; nothing in the block reads it (log 4). -/
structure Port where
  pending  : List Request
  resp     : Option Response
  received : List Response
  deriving DecidableEq, Repr

/-- One event of the total order of 20_memory.md R49 (log 3). -/
inductive Turn where
  /-- The agent's oldest pending request is linearized (R45, R49). -/
  | serve (a : Agent)
  /-- The agent's host takes the whole of its response (R55). -/
  | take (a : Agent)
  /-- The reset event (70_reset_and_hazards.md R170). -/
  | reset
  deriving DecidableEq, Repr

/-- A store of bytes by address, listed by rising address; an address not listed has never been written and reads as
no value (10_state.md R21, R34). -/
abbrev Memory := List Host.Cell

/-- Why the machine stops. No operation raises one from a state that meets `State.Inv` (Safety.lean). -/
inductive Fault where
  /-- A read of a ring slot that no push has written, raised by RB_POP and RB_READ_EXACT; 10_state.md R35 says a model
  that reaches one "should fault". Safe. -/
  | neverWrittenSlot
  /-- An access to a slot index of RB_N or above, which does not exist (20_memory.md R40), raised by RB_PUSH, RB_POP and
  RB_READ_EXACT where a cursor is out of range. Safe. -/
  | noSuchSlot
  deriving DecidableEq, Repr

/-- Why a step has no meaning. -/
inductive Refusal where
  /-- The instruction has no meaning in this model yet; raised by `exec` alone. Safe. -/
  | notModelled (mnemonic : String)
  /-- The request served has a legal header and a data stream of another length than it declares; raised by the step.
  20_memory.md R54: "refuses (with no step) a pair whose data length differs from the declared length". Safe. -/
  | dataLengthMismatch
  deriving DecidableEq, Repr

/-- The block's state (10_state.md R20), its build parameter, its interfaces and the events to come. -/
structure State where
  /-- RB_N, the number of ring slots; no operation writes it (00_scope.md R12; log 1). -/
  rbN      : Nat
  /-- Rb, the ring storage (10_state.md R21). -/
  rb       : Memory
  /-- rb_wr, the slot the next push writes (10_state.md R22; log 11). -/
  rbWr     : Nat
  /-- rb_rd, the slot the next pop reads (10_state.md R22; log 11). -/
  rbRd     : Nat
  /-- rb_drops, the saturating drop counter (10_state.md R23). -/
  rbDrops  : Half
  /-- The producer's side of the interface (20_memory.md R48). -/
  producer : Port
  /-- The consumer's side of the interface (20_memory.md R48). -/
  consumer : Port
  /-- The events to come, in the total order of 20_memory.md R49 (log 3). -/
  sched    : List Turn
  /-- The agent whose request is being executed, to which the response goes (log 8). -/
  serving  : Agent
  deriving DecidableEq, Repr

/-- An interface with nothing issued, nothing answered. -/
def Port.idle : Port := ⟨[], none, []⟩

/-- The state after reset of a block built with `n` slots: cursors and counter 0, every slot never written
(10_state.md R34; 70_reset_and_hazards.md R170), and nothing issued by either agent (log 8). -/
def State.resetWith (n : Nat) : State where
  rbN := n
  rb := []
  rbWr := 0
  rbRd := 0
  rbDrops := 0#16
  producer := Port.idle
  consumer := Port.idle
  sched := []
  serving := .consumer

/-- The state after reset, for the RB_N the block was built with, a free value (log 1). -/
def State.reset : State := State.resetWith Config.rbN

end Sys2Proof.Machine
end

