-- ==== Sys2Proof/Machine/Ops.lean ====
section
/-! DEFINITION. The named operations over the ring storage, the cursors, the responses and the interfaces. Answering
with an error status, the block's only form of exception, is `State.raise` (00_scope.md R17; 60_exceptions.md R150,
R151); there is no trap entry and no return (R158). -/

namespace Sys2Proof.Machine

/-! ## A store of bytes -/

/-- The byte at an address, if one was written. -/
def Memory.read : Memory → Nat → Option Byte
  | [], _ => none
  | (a, v) :: rest, x => if x = a then some v else Memory.read rest x

/-- Write one byte, keeping the addresses in rising order. -/
def Memory.write : Memory → Nat → Byte → Memory
  | [], x, v => [(x, v)]
  | (a, w) :: rest, x, v =>
    if x < a then (x, v) :: (a, w) :: rest
    else if x = a then (x, v) :: rest
    else (a, w) :: Memory.write rest x v

/-- The canonical form: addresses strictly rising. -/
abbrev Memory.wf (m : Memory) : Prop := m.Pairwise (fun p q => p.1 < q.1)

/-! ## The ring buffer's derived quantities (10_state.md R24, R26) -/

/-- A slot index `x` places on from slot 0, modulo RB_N (10_state.md R22). -/
def State.slot (s : State) (x : Nat) : Nat := x % s.rbN

/-- size() = (rb_wr - rb_rd) mod RB_N, the least non-negative remainder (10_state.md R24; 00_scope.md R17). -/
def State.size (s : State) : Nat := (((s.rbWr : Int) - (s.rbRd : Int)) % (s.rbN : Int)).toNat

/-- remaining() = RB_N - size() - 1 (10_state.md R24). -/
def State.remaining (s : State) : Nat := s.rbN - s.size - 1

/-- The buffer is empty (10_state.md R24). -/
abbrev State.empty (s : State) : Prop := s.rbWr = s.rbRd

/-- The buffer is full: (rb_wr + 1) mod RB_N == rb_rd (10_state.md R24; 41_ring_buffer.md R111). -/
abbrev State.full (s : State) : Prop := s.slot (s.rbWr + 1) = s.rbRd

/-- The contents Q, oldest byte first (10_state.md R26). -/
def State.contents (s : State) : List Byte :=
  (List.range s.size).filterMap (fun j => s.rb.read (s.slot (s.rbRd + j)))

/-! ## Access to the ring storage (20_memory.md R40, R44) -/

/-- Read slot `x`: `Rb[x]`. A slot that does not exist or was never written stops the machine (20_memory.md R40;
10_state.md R35). -/
def State.readSlot (s : State) (x : Nat) : Except Fault Byte :=
  if x < s.rbN then
    match s.rb.read x with
    | some v => .ok v
    | none => .error .neverWrittenSlot
  else .error .noSuchSlot

/-- Write slot `x`: `Rb[x] <- v` (20_memory.md R40). -/
def State.writeSlot (s : State) (x : Nat) (v : Byte) : Except Fault State :=
  if x < s.rbN then .ok { s with rb := s.rb.write x v } else .error .noSuchSlot

/-- Read `n` slots from slot `x` on, wrapping from slot RB_N-1 to slot 0 (20_memory.md R44; 41_ring_buffer.md R113). -/
def State.readSlots (s : State) (x : Nat) : Nat → Except Fault (List Byte)
  | 0 => .ok []
  | n + 1 =>
    match s.readSlot (s.slot x) with
    | .error f => .error f
    | .ok v =>
      match s.readSlots (x + 1) n with
      | .error f => .error f
      | .ok vs => .ok (v :: vs)

/-! ## The cursors and the counter (41_ring_buffer.md R111 to R113) -/

/-- rb_wr <- (rb_wr + 1) mod RB_N. -/
def State.advanceWr (s : State) : State := { s with rbWr := s.slot (s.rbWr + 1) }

/-- rb_rd <- (rb_rd + n) mod RB_N. -/
def State.advanceRd (s : State) (n : Nat) : State := { s with rbRd := s.slot (s.rbRd + n) }

/-- rb_drops <- min(rb_drops + 1, 0xFFFF) (10_state.md R23). -/
def State.countDrop (s : State) : State :=
  { s with rbDrops := BitVec.ofNat 16 (min (s.rbDrops.toNat + 1) Config.dropsMax) }

/-- The oldest unread byte is discarded and counted (41_ring_buffer.md R111). -/
def State.discardOldest (s : State) : State := (s.advanceRd 1).countDrop

/-! ## Ports and responses -/

/-- An agent's side of the interface. -/
def State.port (s : State) : Agent → Port
  | .producer => s.producer
  | .consumer => s.consumer

/-- Replace an agent's side of the interface. -/
def State.setPort (s : State) (a : Agent) (p : Port) : State :=
  match a with
  | .producer => { s with producer := p }
  | .consumer => { s with consumer := p }

/-- Give a response to the agent being served. -/
def State.answer (s : State) (r : Response) : State :=
  s.setPort s.serving { s.port s.serving with resp := some r }

/-- `respond(status, tag, aux8, len16, data)` (00_scope.md R17). -/
def State.respond (s : State) (status : Status) (tag : CommandTag) (aux8 : Byte) (len16 : Half) (data : List Byte) :
    State :=
  s.answer ⟨status, tag, aux8, len16, data⟩

/-- `raise E`: a response with status `E` whose other fields are zero and that writes no state (00_scope.md R17;
60_exceptions.md R150, R151). -/
def State.raise (s : State) (e : Status) : State := s.respond e .invalid 0#8 0#16 []

/-- The response the agent being served was given last and whose host has not taken it. -/
def State.response (s : State) : Option Response := (s.port s.serving).resp

/-! ## Turns -/

/-- The event that comes next, if any is scheduled (20_memory.md R49). -/
def State.nextTurn (s : State) : Option Turn := s.sched.head?

/-- The event that came next has come. -/
def State.passTurn (s : State) : State := { s with sched := s.sched.tail }

/-- The agent's oldest pending request is accepted, if it has one and its host has taken its last response
(20_memory.md R49, R55). -/
def State.accept (s : State) (a : Agent) : Option (Request × State) :=
  match (s.port a).resp, (s.port a).pending with
  | none, r :: rest => some (r, { s.setPort a { s.port a with pending := rest } with serving := a })
  | _, _ => none

/-- The agent's host takes its response, if there is one (20_memory.md R55). -/
def State.takeResponse (s : State) (a : Agent) : State :=
  match (s.port a).resp with
  | some r => s.setPort a { s.port a with resp := none, received := (s.port a).received ++ [r] }
  | none => s

/-- The reset event: cursors and counter 0, every slot never written; RB_N, the pending requests and the responses not
yet taken are kept (70_reset_and_hazards.md R170 to R172; log 5). -/
def State.resetBlock (s : State) : State := { s with rb := [], rbWr := 0, rbRd := 0, rbDrops := 0#16 }

/-! ## The host's side -/

/-- An agent issues requests: they join the end of its pending requests, in order (20_memory.md R49). -/
def State.issueAll (s : State) (a : Agent) (rs : List Request) : State :=
  s.setPort a { s.port a with pending := (s.port a).pending ++ rs }

/-- An agent issues one request. -/
def State.issue (s : State) (a : Agent) (r : Request) : State := s.issueAll a [r]

/-- One line of a host program: its agent, the consumer where the line has no prefix, and what it asks for
(30_encoding.md R74, R75). -/
structure HostLine where
  agent : Agent := .consumer
  op    : HostOp
  deriving DecidableEq, Repr

/-- The requests of a line, all of them its agent's (30_encoding.md R74, R75). -/
def HostLine.requests (l : HostLine) : List Request := l.op.expand.map encode

/-- A host program's lines are issued in the order they are written in; the events to come are left as they are, so
that an order of the two agents' requests is still to be chosen, also between those of one RB_PUSHS (30_encoding.md R74,
R75; 20_memory.md R49). -/
def State.issueProgram (s : State) : List HostLine → State
  | [] => s
  | l :: rest => (s.issueAll l.agent l.requests).issueProgram rest

/-- The events that serve a line's requests one after the other, each response taken before the next request
(20_memory.md R55). -/
def HostLine.turns (l : HostLine) : List Turn := l.requests.flatMap (fun _ => [.serve l.agent, .take l.agent])

/-- Load a host program, with the one total order in which its lines are written (log 9). -/
def State.load (s : State) (p : List HostLine) : State :=
  let t := s.issueProgram p
  { t with sched := t.sched ++ p.flatMap HostLine.turns }

/-- The consumer's side with a request put first in line and no response left to take. -/
def Port.withRequestFirst (p : Port) (r : Request) : Port := { p with resp := none, pending := r :: p.pending }

end Sys2Proof.Machine
end

