-- ==== Sys2Proof/Machine/Flags.lean ====
section
/-! DEFINITION. The block keeps no flags (41_ring_buffer.md, 40_frame_codec.md, 42_chunker.md: "Flags written: none").
What a response reports in their place: the status codes, the tag field, the DROPPED bit, and the response header
word (30_encoding.md R64 to R67). -/

namespace Sys2Proof.Machine

/-- The status codes (30_encoding.md R65). -/
def Status.code : Status → BitVec 4
  | .ok => 0x0#4
  | .noData => 0x1#4
  | .truncated => 0x2#4
  | .payloadOverflow => 0x3#4
  | .payloadTooLarge => 0x4#4
  | .badRowCount => 0x5#4
  | .badRowIndex => 0x6#4
  | .badLength => 0x7#4
  | .illegalOp => 0x8#4

/-- The tag field's encoding (30_encoding.md R66). -/
def CommandTag.field : CommandTag → BitVec 2
  | .invalid => 0#2
  | .screenBuffer => 1#2
  | .ack => 2#2

/-- RB_PUSH's `aux8`: bit 0 is DROPPED (30_encoding.md R67; 41_ring_buffer.md R111). -/
def droppedBit (dropped : Bool) : Byte := if dropped then 0x01#8 else 0x00#8

/-- The response header word: status [3:0], tag [5:4], reserved [7:6] always 0, aux8 [15:8], len16 [31:16]
(30_encoding.md R64). -/
def Response.header (r : Response) : Word :=
  r.len16 ++ (r.aux8 ++ ((0#2 ++ (r.tag.field ++ r.status.code)) : BitVec 8))

/-- A response as the bytes a byte-wide channel carries (20_memory.md R43; 30_encoding.md R64, R67). -/
def Response.toBytes (r : Response) : List Byte := r.header.toBytes ++ r.data

end Sys2Proof.Machine
end

