-- ==== Sys2Proof/Machine/Operands.lean ====
section
/-! DEFINITION. How an operation reads the parts of its data stream: slices, a frame's body, a bitmap's row, the command
byte's tag (00_scope.md R17; 40_frame_codec.md R84, R85; 30_encoding.md R61). -/

namespace Sys2Proof.Machine

/-- The half-open slice `S[a..b]`, at most to the end of `S` (00_scope.md R17). -/
def slice (S : List Byte) (a b : Nat) : List Byte := (S.drop a).take (b - a)

/-- The body of a frame, the bytes before the first `0x00`; `none` when there is no delimiter (40_frame_codec.md R85). -/
def frameBody : List Byte → Option (List Byte)
  | [] => none
  | b :: rest => if b = 0x00#8 then some [] else (frameBody rest).map (b :: ·)

/-- Row `r` of a bitmap sent row-major: bytes `50·r … 50·r + 49` (30_encoding.md R61; 20_memory.md R42). -/
def bitmapRow (bitmap : List Byte) (r : Byte) : List Byte :=
  slice bitmap (Config.wRow * r.toNat) (Config.wRow * r.toNat + Config.wRow)

/-- A row index that names a row of the bitmap (42_chunker.md R134). -/
def legalRow (r : Byte) : Bool := decide (r.toNat < Config.rRows)

/-- TagOf: the tag of a command byte; every code but `0x01` and `0x02` is Invalid (40_frame_codec.md R84;
30_encoding.md R69). -/
def tagOf (b : Byte) : CommandTag :=
  if b = 0x01#8 then .screenBuffer else if b = 0x02#8 then .ack else .invalid

/-- CodeOf: the command byte of a tag (40_frame_codec.md R84; 30_encoding.md R69). -/
def codeOf : CommandTag → Byte
  | .invalid => 0x00#8
  | .screenBuffer => 0x01#8
  | .ack => 0x02#8

/-- PacketOf: a decoded unit's first byte is the command byte, the rest the payload; an empty unit is no packet
(40_frame_codec.md R92, R95). -/
def packetOf : List Byte → Option Packet
  | [] => none
  | c :: payload => some ⟨tagOf c, c, payload⟩

end Sys2Proof.Machine
end

