-- ==== Sys2Proof/Machine/RingBuffer.lean ====
section
/-! DEFINITION. The Ring Buffer operations (41_ring_buffer.md R111 to R116). -/

namespace Sys2Proof.Machine

/-- RB_PUSH (41_ring_buffer.md R111): append one byte; on a full buffer the oldest byte is discarded and counted, and
the response says DROPPED. -/
def execRbPush (v : Byte) (s : State) : Host.Outcome State Fault Refusal :=
  match s.writeSlot s.rbWr v with
  | .error f => .fault f
  | .ok t =>
    .next ((if s.full then t.advanceWr.discardOldest else t.advanceWr).respond .ok .invalid
      (droppedBit (decide s.full)) 0#16 [])

/-- RB_POP (41_ring_buffer.md R112): remove and return the oldest byte, or NONE. -/
def execRbPop (s : State) : Host.Outcome State Fault Refusal :=
  if s.empty then .next (s.raise .noData)
  else
    match s.readSlot s.rbRd with
    | .error f => .fault f
    | .ok v => .next ((s.advanceRd 1).respond .ok .invalid v 0#16 [])

/-- RB_READ_EXACT (41_ring_buffer.md R113): remove and return exactly `n` bytes, or NONE with no side effect. -/
def execRbReadExact (n : Half) (s : State) : Host.Outcome State Fault Refusal :=
  if s.size < n.toNat then .next (s.raise .noData)
  else
    match s.readSlots s.rbRd n.toNat with
    | .error f => .fault f
    | .ok out => .next ((s.advanceRd n.toNat).respond .ok .invalid 0#8 n out)

/-- RB_SIZE (41_ring_buffer.md R114). -/
def execRbSize (s : State) : Host.Outcome State Fault Refusal :=
  .next (s.respond .ok .invalid 0#8 (BitVec.ofNat 16 s.size) [])

/-- RB_REMAINING (41_ring_buffer.md R115). -/
def execRbRemaining (s : State) : Host.Outcome State Fault Refusal :=
  .next (s.respond .ok .invalid 0#8 (BitVec.ofNat 16 s.remaining) [])

/-- RB_DROPS (41_ring_buffer.md R116): the counter is not cleared by reading. -/
def execRbDrops (s : State) : Host.Outcome State Fault Refusal :=
  .next (s.respond .ok .invalid 0#8 s.rbDrops [])

end Sys2Proof.Machine
end

