-- ==== Sys2Proof/Machine/FrameCodec.lean ====
section
/-! DEFINITION. The Frame Codec: the byte-level functions CobsEncode and CobsDecode (40_frame_codec.md R81, R85 to R88)
and the two operations over them (R94, R95). -/

namespace Sys2Proof.Machine

/-- The code byte of a block: block length + 1 (40_frame_codec.md R81; 30_encoding.md R70). -/
def blockCode (blk : List Byte) : Byte := BitVec.ofNat 8 (blk.length + 1)

/-- What CobsEncode emits from the input still to read, `blk` being the open block (40_frame_codec.md R81). A zero closes
the block; so does its 254th byte, and then nothing follows but the delimiter if the input ends there (R83). -/
def cobsBlocks (blk : List Byte) : List Byte → List Byte
  | [] => blockCode blk :: blk ++ [0x00#8]
  | b :: rest =>
    if b = 0x00#8 then blockCode blk :: blk ++ cobsBlocks [] rest
    else if blk.length + 1 = Config.maxRun then
      match rest with
      | [] => 0xFF#8 :: (blk ++ [b]) ++ [0x00#8]
      | _ :: _ => 0xFF#8 :: (blk ++ [b]) ++ cobsBlocks [] rest
    else cobsBlocks (blk ++ [b]) rest

/-- CobsEncode (40_frame_codec.md R81). -/
def cobsEncode (S : List Byte) : List Byte := cobsBlocks [] S

/-- The walk of CobsDecode (40_frame_codec.md R85), from the body offset where `B` begins, `D` being what is decoded so
far; `skip` bytes of `B` belong to the block last appended. At a code byte `c` the pointer is tested (R86), then the
capacity (R87), then the block is appended, and a zero after it unless `c` is `0xFF` or the block is the last. -/
def cobsWalk : List Byte → Nat → List Byte → Except Status (List Byte)
  | [], _, D => .ok D
  | _ :: rest, k + 1, D => cobsWalk rest k D
  | c :: rest, 0, D =>
    let run := c.toNat - 1
    if rest.length < run then .error .truncated
    else if Config.decCap < D.length + run then .error .payloadOverflow
    else
      let D' := D ++ rest.take run
      if c.toNat < 0xFF ∧ run < rest.length then
        if Config.decCap < D'.length + 1 then .error .payloadOverflow
        else cobsWalk rest run (D' ++ [0x00#8])
      else cobsWalk rest run D'

/-- CobsDecode (40_frame_codec.md R85): no delimiter and an empty body are TRUNCATED. -/
def cobsDecode (F : List Byte) : Except Status (List Byte) :=
  match frameBody F with
  | none => .error .truncated
  | some [] => .error .truncated
  | some (b :: rest) => cobsWalk (b :: rest) 0 []

/-- FC_ENCODE (40_frame_codec.md R94): frame one packet, or PAYLOAD_TOO_LARGE. -/
def execFcEncode (cmd : Byte) (payload : List Byte) (s : State) : Host.Outcome State Fault Refusal :=
  .next (
    if Config.maxPayload < payload.length then s.raise .payloadTooLarge
    else
      let E := cobsEncode (cmd :: payload)
      s.respond .ok .invalid 0#8 (BitVec.ofNat 16 E.length) E)

/-- FC_DECODE (40_frame_codec.md R95): unframe one packet; an empty unit is TRUNCATED. -/
def execFcDecode (frame : List Byte) (s : State) : Host.Outcome State Fault Refusal :=
  .next (
    match cobsDecode frame with
    | .error e => s.raise e
    | .ok D =>
      match packetOf D with
      | none => s.raise .truncated
      | some p => s.respond .ok p.command p.cmdRaw (BitVec.ofNat 16 p.payload.length) p.payload)

end Sys2Proof.Machine
end

