-- ==== Sys2Proof/Machine/Chunker.lean ====
section
/-! DEFINITION. The Bulk Transfer Chunker: its functions (42_chunker.md R131, R132, R136, R139) and the two operations
over them (R133, R137). -/

namespace Sys2Proof.Machine

/-- BulkPayload: the row count, the row indices, the rows in the same order (42_chunker.md R131; 30_encoding.md R72). -/
def bulkPayload (bitmap rows : List Byte) : List Byte :=
  BitVec.ofNat 8 rows.length :: rows ++ rows.flatMap (bitmapRow bitmap)

/-- T(k), the length of the bulk payload of `k` rows (42_chunker.md R131). -/
def bulkLength (k : Nat) : Nat := 1 + 51 * k

/-- ⌈a / b⌉ (00_scope.md R17). -/
def ceilDiv (a b : Nat) : Nat := (a + b - 1) / b

/-- Count(k), the packet count of an update of `k` rows (42_chunker.md R131). -/
def packetCount (k : Nat) : Nat := ceilDiv (bulkLength k) Config.maxPayload

/-- The length of the last packet's payload (42_chunker.md R132, R139). -/
def lastPayloadLength (k : Nat) : Nat := bulkLength k - Config.maxPayload * (packetCount k - 1)

/-- Packet `j`'s payload: bytes 254·j to min(254·(j+1), len(P)) (42_chunker.md R132). -/
def packetPayload (P : List Byte) (j : Nat) : List Byte :=
  slice P (Config.maxPayload * j) (min (Config.maxPayload * (j + 1)) P.length)

/-- The payloads of an update's packets, in order (42_chunker.md R132). -/
def packetPayloads (P : List Byte) (count : Nat) : List (List Byte) := (List.range count).map (packetPayload P)

/-- A packet record: command byte ScreenBuffer, payload length, payload (30_encoding.md R73). -/
def packetRecord (payload : List Byte) : List Byte := 0x01#8 :: BitVec.ofNat 8 payload.length :: payload

/-- The packets of a bitmap update, or why there are none: the row count is checked first, then the indices
(42_chunker.md R133, R134). -/
def chunk (rows bitmap : List Byte) : Except Status (List (List Byte)) :=
  if Config.rRows < rows.length then .error .badRowCount
  else if rows.any (fun r => !legalRow r) then .error .badRowIndex
  else .ok (packetPayloads (bulkPayload bitmap rows) (packetCount rows.length))

/-- What Unchunk returns (42_chunker.md R136). -/
structure BulkUpdate where
  count   : Byte
  indices : List Byte
  rowData : List Byte
  deriving DecidableEq, Repr

/-- Unchunk: parse a concatenated bulk payload; the checks in the order empty, row count, length, indices
(42_chunker.md R136; 60_exceptions.md R154). -/
def unchunk (P : List Byte) : Except Status BulkUpdate :=
  match P with
  | [] => .error .badLength
  | N :: _ =>
    if Config.rRows < N.toNat then .error .badRowCount
    else if P.length ≠ bulkLength N.toNat then .error .badLength
    else
      let indices := slice P 1 (1 + N.toNat)
      if indices.any (fun r => !legalRow r) then .error .badRowIndex
      else .ok ⟨N, indices, slice P (1 + N.toNat) (1 + 51 * N.toNat)⟩

/-- BC_CHUNK (42_chunker.md R133): the packet count in `len16`, the packet records as data. -/
def execBcChunk (rows bitmap : List Byte) (s : State) : Host.Outcome State Fault Refusal :=
  .next (
    match chunk rows bitmap with
    | .error e => s.raise e
    | .ok packets =>
      s.respond .ok .invalid 0#8 (BitVec.ofNat 16 packets.length) (packets.flatMap packetRecord))

/-- BC_UNCHUNK (42_chunker.md R137): the row count in `aux8`, the indices and the row bytes as data. -/
def execBcUnchunk (payload : List Byte) (s : State) : Host.Outcome State Fault Refusal :=
  .next (
    match unchunk payload with
    | .error e => s.raise e
    | .ok u => s.respond .ok .invalid u.count (BitVec.ofNat 16 (51 * u.count.toNat)) (u.indices ++ u.rowData))

end Sys2Proof.Machine
end

