-- ==== Sys2Proof/Machine/Dispatch.lean ====
section
/-! DEFINITION. The one match from an instruction to its meaning. -/

namespace Sys2Proof.Machine

def exec (i : Instr) (s : State) : Host.Outcome State Fault Refusal :=
  match i with
  -- Ring Buffer
  | .rbPush v => Sys2Proof.Machine.execRbPush v s
  | .rbPop => Sys2Proof.Machine.execRbPop s
  | .rbReadExact n => Sys2Proof.Machine.execRbReadExact n s
  | .rbSize => Sys2Proof.Machine.execRbSize s
  | .rbRemaining => Sys2Proof.Machine.execRbRemaining s
  | .rbDrops => Sys2Proof.Machine.execRbDrops s
  -- Frame Codec
  | .fcEncode cmd payload => Sys2Proof.Machine.execFcEncode cmd payload s
  | .fcDecode frame => Sys2Proof.Machine.execFcDecode frame s
  -- Bulk Transfer Chunker
  | .bcChunk rows bitmap => Sys2Proof.Machine.execBcChunk rows bitmap s
  | .bcUnchunk payload => Sys2Proof.Machine.execBcUnchunk payload s

end Sys2Proof.Machine
end

