-- ==== Sys2Proof/Machine/Step.lean ====
section
/-! DEFINITION. One step: the next event of the total order (20_memory.md R49). -/

namespace Sys2Proof.Machine

/-- Execute an accepted request: the instruction it decodes to, or the answer ILLEGAL_OP, which writes no state and
discards the data (30_encoding.md R63), or no step at all where the data length is not the declared one
(20_memory.md R54). -/
def serveRequest (r : Request) (s : State) : Host.Outcome State Fault Refusal :=
  match decode r with
  | .ok i => exec i s
  | .error .illegalOp => .next (s.raise .illegalOp)
  | .error .dataLengthMismatch => .refused .dataLengthMismatch

/-- One step. With no event scheduled the block idles (60_exceptions.md R163); a turn for an agent with no request that
can be accepted passes (log 3, log 4). -/
def step (s : State) : Host.Outcome State Fault Refusal :=
  match s.nextTurn with
  | none => .next s
  | some .reset => .next s.passTurn.resetBlock
  | some (.take a) => .next (s.passTurn.takeResponse a)
  | some (.serve a) =>
    match s.passTurn.accept a with
    | none => .next s.passTurn
    | some (r, t) => serveRequest r t

/-- `s` with the request whose bits are `w` first in the consumer's line and the consumer's turn next, so that the next
step executes it (log 9). -/
def State.withFetchWord (s : State) (nbits w : Nat) : State :=
  { s with
    consumer := s.consumer.withRequestFirst (tableRequest nbits w)
    sched := .serve .consumer :: s.sched }

end Sys2Proof.Machine
end

