-- ==== Sys2Proof/Safety.lean ====
section
/-! DEFINITION. The terms claims are stated in: the invariant of the block's state (10_state.md R22, R25, R35), what
two states share, runs of operations, and the spec's own loops of the Frame Codec (40_frame_codec.md R81, R85) and
its length formula (R98), written as the spec writes them. -/

namespace Sys2Proof.Machine

/-! ## The invariant -/

/-- What every reachable state meets: a legal RB_N (00_scope.md R12), both cursors below it (10_state.md R22), the ring
storage in canonical form with no slot at RB_N or above (20_memory.md R40), and every slot of the contents written
(10_state.md R26, R35). -/
abbrev State.Inv (s : State) : Prop :=
  Config.legalSlots s.rbN ∧ s.rbWr < s.rbN ∧ s.rbRd < s.rbN ∧ Memory.wf s.rb ∧ (∀ c ∈ s.rb, c.1 < s.rbN) ∧
    ∀ j < s.size, (s.rb.read (s.slot (s.rbRd + j))).isSome = true

/-! ## What two states share -/

/-- The block's architectural state and its build parameter are the same (10_state.md R20): every slot of the ring
storage reads the same, and the cursors, the counter and RB_N are equal. -/
abbrev State.sameBlock (s t : State) : Prop :=
  (∀ x, t.rb.read x = s.rb.read x) ∧ t.rbWr = s.rbWr ∧ t.rbRd = s.rbRd ∧ t.rbDrops = s.rbDrops ∧ t.rbN = s.rbN

/-- The interfaces are the same but for the response of the agent being served: both agents' pending requests and taken
responses, the other agent's response, the events to come, and who is served. -/
abbrev State.sameButResponse (s t : State) : Prop :=
  (∀ a, (t.port a).pending = (s.port a).pending) ∧ (∀ a, (t.port a).received = (s.port a).received) ∧
    (∀ a, a ≠ s.serving → (t.port a).resp = (s.port a).resp) ∧ t.sched = s.sched ∧ t.serving = s.serving

/-- The view of 41_ring_buffer.md R120: the same RB_N, the same contents and the same drop counter. -/
abbrev State.sameView (s t : State) : Prop :=
  t.rbN = s.rbN ∧ t.contents = s.contents ∧ t.rbDrops = s.rbDrops

/-! ## Runs of operations -/

/-- Execute operations one after the other, collecting the responses; `none` if one stops the machine. -/
def runOps : List Instr → State → Option (State × List Response)
  | [], s => some (s, [])
  | i :: rest, s =>
    match exec i s with
    | .next t => (runOps rest t).map (fun q => (q.1, t.response.toList ++ q.2))
    | .fault _ => none
    | .refused _ => none

/-- An RB_PUSH answered with DROPPED: bit 0 of `aux8` (30_encoding.md R67). -/
def isDrop : Instr → Response → Bool
  | .rbPush _, r => r.aux8.getLsbD 0
  | _, _ => false

/-- How many of the operations were RB_PUSHes answered with DROPPED (41_ring_buffer.md R121). -/
def dropCount : List Instr → List Response → Nat
  | i :: is, r :: rs => (if isDrop i r then 1 else 0) + dropCount is rs
  | _, _ => 0

/-- The statuses an operation can answer with (60_exceptions.md R153). -/
def possibleStatuses : Instr → List Status
  | .rbPush _ => [.ok]
  | .rbPop => [.ok, .noData]
  | .rbReadExact _ => [.ok, .noData]
  | .rbSize => [.ok]
  | .rbRemaining => [.ok]
  | .rbDrops => [.ok]
  | .fcEncode _ _ => [.ok, .payloadTooLarge]
  | .fcDecode _ => [.ok, .truncated, .payloadOverflow]
  | .bcChunk _ _ => [.ok, .badRowCount, .badRowIndex]
  | .bcUnchunk _ => [.ok, .badLength, .badRowCount, .badRowIndex]

/-- An operation that writes no block state (10_state.md R37; 20_memory.md R47). -/
def isStateless : Instr → Bool
  | .rbPush _ => false
  | .rbPop => false
  | .rbReadExact _ => false
  | .rbSize => true
  | .rbRemaining => true
  | .rbDrops => true
  | .fcEncode _ _ => true
  | .fcDecode _ => true
  | .bcChunk _ _ => true
  | .bcUnchunk _ => true

/-- The illegal headers, field by field (30_encoding.md R63): an unassigned opcode, or a non-zero field that R62 marks
"must be 0". -/
abbrev illegalHeader (h : Word) : Prop :=
  h.opcode ∉ [0x01#8, 0x02#8, 0x03#8, 0x04#8, 0x05#8, 0x06#8, 0x10#8, 0x11#8, 0x20#8, 0x21#8] ∨
    (h.opcode ∈ [0x02#8, 0x03#8, 0x04#8, 0x05#8, 0x06#8, 0x11#8, 0x20#8, 0x21#8] ∧ h.imm8 ≠ 0#8) ∨
    (h.opcode ∈ [0x01#8, 0x02#8, 0x04#8, 0x05#8, 0x06#8] ∧ h.len16 ≠ 0#16)

/-- The next event serves agent `a`, whose oldest pending request is `r`, and no response of its waits to be taken: the
request is accepted (20_memory.md R49, R55). `rest` is what is scheduled after, `q` what is pending after. -/
abbrev State.aboutToServe (s : State) (a : Agent) (r : Request) (q : List Request) (rest : List Turn) : Prop :=
  s.sched = .serve a :: rest ∧ (s.port a).resp = none ∧ (s.port a).pending = r :: q

/-- The state in which an accepted request executes: out of its agent's line, its turn past, its agent served. -/
def State.accepted (s : State) (a : Agent) (q : List Request) (rest : List Turn) : State :=
  { s.setPort a { s.port a with pending := q } with sched := rest, serving := a }

/-- The row list and the bitmap of an update that BC_CHUNK accepts (42_chunker.md R130, R134; 00_scope.md R14). -/
abbrev legalUpdate (rows bitmap : List Byte) : Prop :=
  rows.length ≤ 240 ∧ (∀ r ∈ rows, r.toNat < 240) ∧ bitmap.length = 12000

/-! ## The Frame Codec as the spec writes it -/

/-- No byte is the delimiter. -/
abbrev zeroFree (S : List Byte) : Prop := ∀ b ∈ S, b ≠ 0x00#8

/-- The loop of CobsEncode (40_frame_codec.md R81): `out` is what has been emitted, `blk` the open block, `S` the input
from index `idx` on. `idx == len(S) - 1` is "nothing is left after this byte". -/
def encodeLoop (out blk : List Byte) : List Byte → List Byte
  | [] => out ++ [blockCode blk] ++ blk ++ [0x00#8]
  | b :: rest =>
    if b = 0x00#8 then encodeLoop (out ++ [blockCode blk] ++ blk) [] rest
    else
      let blk' := blk ++ [b]
      if blk'.length = Config.maxRun then
        if rest = [] then out ++ [0xFF#8] ++ blk' ++ [0x00#8]
        else encodeLoop (out ++ [0xFF#8] ++ blk') [] rest
      else encodeLoop out blk' rest

/-- The loop of CobsDecode (40_frame_codec.md R85): body `B`, offset `i`, decoded so far `D`; at most `fuel` turns. -/
def decodeLoop (B : List Byte) : Nat → Nat → List Byte → Except Status (List Byte)
  | 0, _, D => .ok D
  | fuel + 1, i, D =>
    if i < B.length then
      let c := (B.getD i 0).toNat
      if i + c > B.length then .error .truncated
      else if D.length + (c - 1) > Config.decCap then .error .payloadOverflow
      else
        let D' := D ++ slice B (i + 1) (i + c)
        if c < 0xFF ∧ i + c < B.length then
          if D'.length + 1 > Config.decCap then .error .payloadOverflow
          else decodeLoop B fuel (i + c) (D' ++ [0x00#8])
        else decodeLoop B fuel (i + c) D'
    else .ok D

/-- CobsDecode from its loop (40_frame_codec.md R85): the body ends before the first `0x00`. -/
def decodeByLoop (F : List Byte) : Except Status (List Byte) :=
  if 0x00#8 ∉ F then .error .truncated
  else
    let B := F.takeWhile (· ≠ 0x00#8)
    if B.length = 0 then .error .truncated else decodeLoop B B.length 0 []

/-- The code bytes of a body, in order; `skip` bytes of it belong to the block begun last (30_encoding.md R70). -/
def codeBytes : List Byte → Nat → List Byte
  | [], _ => []
  | _ :: rest, k + 1 => codeBytes rest k
  | c :: rest, 0 => c :: codeBytes rest (c.toNat - 1)

/-- A body whose last two blocks are a `0xFF` block and then an empty block (40_frame_codec.md R91). -/
abbrev endsFullThenEmpty (B : List Byte) : Prop := [0xFF#8, 0x01#8] <:+ codeBytes B 0

/-- The segments of non-zero bytes between the zeros of `S`, `seg` being the open one; the last is the final segment
(40_frame_codec.md R98). -/
def segments (seg : List Byte) : List Byte → List (List Byte)
  | [] => [seg]
  | b :: rest => if b = 0x00#8 then seg :: segments [] rest else segments (seg ++ [b]) rest

/-- Blocks of 40_frame_codec.md R98: a closed segment costs ⌊|s|/254⌋ + 1 blocks, the final one max(1, ⌈|s|/254⌉). -/
def blocksOf : List (List Byte) → Nat
  | [] => 0
  | [final] => max 1 (ceilDiv final.length 254)
  | closed :: rest => (closed.length / 254 + 1) + blocksOf rest

end Sys2Proof.Machine
end

