-- ==== Sys2Proof/Certificates/Slice0/Obligations.lean ====
section
/-! DEFINITION. The statements for the provers. Each names the rules of spec/ it formalises. -/

open Sys2Proof Sys2Proof.Machine

/-! ## Reset, the invariant, the step -/

/-- 70_reset_and_hazards.md R170, 10_state.md R34, 00_scope.md R12: after reset the cursors and the counter are 0, no
slot has been written, the buffer is empty, and RB_N is legal (a free value, log 1). -/
def Obligations.ResetLeavesEmptyBuffer : Prop :=
  State.reset.rbWr = 0 ∧ State.reset.rbRd = 0 ∧ State.reset.rbDrops = 0#16 ∧
    (∀ x, State.reset.rb.read x = none) ∧ State.reset.size = 0 ∧
    State.reset.remaining = State.reset.rbN - 1 ∧ Config.legalSlots State.reset.rbN

/-- R170: the reset event, from any state. RB_N is fixed when the block is built (R172). -/
def Obligations.ResetEventClearsTheBlock : Prop :=
  ∀ (s : State) (rest : List Turn), s.sched = .reset :: rest →
    ∃ t, step s = .next t ∧ t.rbWr = 0 ∧ t.rbRd = 0 ∧ t.rbDrops = 0#16 ∧ (∀ x, t.rb.read x = none) ∧
      t.size = 0 ∧ t.remaining = t.rbN - 1 ∧ t.rbN = s.rbN

/-- R171: a request pending at reset executes after reset, on the reset state. -/
def Obligations.PendingRequestRunsAfterReset : Prop :=
  ∀ (s : State) (a : Agent) (r : Request) (q : List Request) (rest : List Turn) (i : Instr),
    s.sched = .reset :: .serve a :: rest → (s.port a).resp = none → (s.port a).pending = r :: q →
      decode r = .ok i →
      ∃ t u, step s = .next t ∧ (t.port a).pending = r :: q ∧ step t = exec i u ∧ u.rbWr = 0 ∧ u.rbRd = 0 ∧
        u.rbDrops = 0#16 ∧ (∀ x, u.rb.read x = none) ∧ u.rbN = s.rbN ∧ u.serving = a

/-- The invariant holds after reset, whatever legal RB_N the block was built with. -/
def Obligations.ResetMeetsInvariant : Prop :=
  (∀ n, Config.legalSlots n → (State.resetWith n).Inv) ∧ State.reset.Inv

/-- 10_state.md R22, R25, R35, 41_ring_buffer.md R117: every step keeps the invariant. -/
def Obligations.StepKeepsInvariant : Prop :=
  ∀ (s t : State), s.Inv → step s = .next t → t.Inv

/-- 10_state.md R25: however many steps a run takes, whatever is scheduled and pending, the size stays between 0 and
RB_N - 1, and size and remaining add up to RB_N - 1. -/
def Obligations.RunKeepsSizeBounds : Prop :=
  ∀ (k : Nat) (s t : State), s.Inv → Host.Core.run Sys2Proof.core k s = .next t →
    t.size ≤ t.rbN - 1 ∧ t.size + t.remaining = t.rbN - 1 ∧ t.rbN = s.rbN

/-- 10_state.md R35: no step reads a never-written slot or one that does not exist. -/
def Obligations.StepNeverFaults : Prop :=
  ∀ (s : State) (f : Fault), s.Inv → step s ≠ .fault f

/-- 60_exceptions.md R156: an accepted request whose data stream has its declared length, or whose header is illegal,
gets exactly one response, and nothing else of the interface changes (the interface's form is the model's, log 3 and
log 4). -/
def Obligations.EveryAcceptedRequestIsAnswered : Prop :=
  ∀ (s : State) (a : Agent) (r : Request) (q : List Request) (rest : List Turn), s.Inv → s.aboutToServe a r q rest →
    decode r ≠ .error .dataLengthMismatch →
    ∃ t p, step s = .next t ∧ (t.port a).resp = some p ∧ (t.port a).pending = q ∧
      (t.port a).received = (s.port a).received ∧ (∀ b, b ≠ a → t.port b = s.port b) ∧ t.sched = rest

/-- 20_memory.md R54: a legal header paired with data of another length than it declares takes no step (log 2). -/
def Obligations.DataLengthMismatchIsRefused : Prop :=
  ∀ (s : State) (a : Agent) (r : Request) (q : List Request) (rest : List Turn) (op : Op),
    s.aboutToServe a r q rest → decodeHeader r.header = some op → r.data.length ≠ declaredLength op r.header →
    step s = .refused .dataLengthMismatch

/-- An accepted request that decodes to `i` executes `i`, in the state with the request out of its line and its turn
past (20_memory.md R45, R49; log 3). -/
def Obligations.StepRunsDecodedInstruction : Prop :=
  ∀ (s : State) (a : Agent) (r : Request) (q : List Request) (rest : List Turn) (i : Instr),
    s.aboutToServe a r q rest → decode r = .ok i → step s = exec i (s.accepted a q rest)

/-- The events that execute no operation (20_memory.md R55; log 3 and log 4 are the model's choices): with nothing
scheduled the block idles; a turn passes while its agent's response waits or nothing is pending; a host takes its
response. -/
def Obligations.TurnsWithoutAnOperation : Prop :=
  (∀ s : State, s.sched = [] → step s = .next s) ∧
  (∀ (s : State) (a : Agent) (rest : List Turn), s.sched = .serve a :: rest →
    ((s.port a).resp.isSome ∨ (s.port a).pending = []) → step s = .next { s with sched := rest }) ∧
  (∀ (s : State) (a : Agent) (rest : List Turn) (p : Response), s.sched = .take a :: rest →
    (s.port a).resp = some p →
    ∃ t, step s = .next t ∧ (t.port a).resp = none ∧ (t.port a).received = (s.port a).received ++ [p] ∧
      (t.port a).pending = (s.port a).pending ∧ (∀ b, b ≠ a → t.port b = s.port b) ∧ s.sameBlock t ∧ t.sched = rest)

/-- 20_memory.md R49: a step takes no request out of a line but the oldest one of the agent whose turn it is, so the
total order respects each agent's issue order (the order is the schedule of log 3). -/
def Obligations.RequestsAreServedInIssueOrder : Prop :=
  ∀ (s t : State) (a : Agent), step s = .next t →
    (t.port a).pending = (s.port a).pending ∨
      (s.nextTurn = some (.serve a) ∧ ∃ r, (s.port a).pending = r :: (t.port a).pending)

/-- 30_encoding.md R75: a line RB_PUSHS stands for its RB_PUSHes, in order and of the same agent, exactly as if each were
a line of its own; it is not atomic as a whole: after its first push is served the others are still pending, and what
comes next is whatever is scheduled. -/
def Obligations.PseudoPushesAreOneAgentsPushes : Prop :=
  (∀ (s : State) (a : Agent) (bs : List Byte),
    s.issueProgram [⟨a, .rbPushs bs⟩] = s.issueProgram (bs.map (fun b => ⟨a, .instr (.rbPush b)⟩)) ∧
    ((s.issueProgram [⟨a, .rbPushs bs⟩]).port a).pending =
      (s.port a).pending ++ bs.map (fun b => ⟨headerOf 0x01#8 b 0#16, []⟩) ∧
    (∀ c, c ≠ a → (s.issueProgram [⟨a, .rbPushs bs⟩]).port c = s.port c) ∧
    (s.issueProgram [⟨a, .rbPushs bs⟩]).sched = s.sched ∧ s.sameBlock (s.issueProgram [⟨a, .rbPushs bs⟩])) ∧
  (∀ (s : State) (a : Agent) (b : Byte) (bs : List Byte) (rest : List Turn), s.Inv → (s.port a).resp = none →
    (s.port a).pending = [] → s.sched = .serve a :: rest →
    ∃ t p, step (s.issueProgram [⟨a, .rbPushs (b :: bs)⟩]) = .next t ∧ (t.port a).resp = some p ∧ p.status = .ok ∧
      (t.port a).pending = bs.map (fun c => ⟨headerOf 0x01#8 c 0#16, []⟩) ∧ t.sched = rest)

/-! ## Encodings -/

/-- Every well-formed instruction survives encoding and decoding, as a request and as bytes. -/
def Obligations.DecodeOfEncode : Prop :=
  ∀ i : Instr, i.wellFormed = true → decode (encode i) = .ok i ∧ decodeBytes (encodeBytes i) = .ok i

/-- A request that decodes is the encoding of what it decodes to: each request has one meaning. -/
def Obligations.EncodeOfDecode : Prop :=
  ∀ (r : Request) (i : Instr), decode r = .ok i → encode i = r ∧ i.wellFormed = true

/-- 30_encoding.md R76: the decoder answers the operation of the one row that matches, ILLEGAL when none does; at most
one row matches, and every mask covers bits [7:0]. -/
def Obligations.HeaderDecodingProcedure : Prop :=
  (∀ (h : Word) (op : Op), decodeHeader h = some op ↔ ∃ r ∈ opcodeMap, r.selects h = true ∧ r.op = op) ∧
  (∀ h : Word, decodeHeader h = none ↔ ∀ r ∈ opcodeMap, r.selects h = false) ∧
  (∀ (h : Word), ∀ r₁ ∈ opcodeMap, ∀ r₂ ∈ opcodeMap, r₁.selects h = true → r₂.selects h = true → r₁ = r₂) ∧
  (∀ r ∈ opcodeMap, r.mask &&& 0xFF#32 = 0xFF#32)

/-- 30_encoding.md R63: the headers that select no row, field by field. -/
def Obligations.IllegalHeaderFields : Prop :=
  ∀ h : Word, decodeHeader h = none ↔ illegalHeader h

/-- 30_encoding.md R63: an illegal request, whatever its data, is answered ILLEGAL_OP with every other field zero, and
writes no state. -/
def Obligations.IllegalRequestAnswersIllegalOp : Prop :=
  ∀ (s : State) (a : Agent) (r : Request) (q : List Request) (rest : List Turn), s.aboutToServe a r q rest →
    illegalHeader r.header →
    ∃ t, step s = .next t ∧ (t.port a).resp = some ⟨.illegalOp, .invalid, 0#8, 0#16, []⟩ ∧ s.sameBlock t ∧
      (t.port a).pending = q

/-- Words written out from 30_encoding.md R60 and R62 decode to what they stand for; two illegal words (R63;
95_test_vectors.md V10) and a data stream of the wrong length (20_memory.md R54; log 2) are rejected by name (a sanity
check). -/
def Obligations.SpecWordsDecode : Prop :=
  decode ⟨0x00000A01#32, []⟩ = .ok (.rbPush 0x0A#8) ∧ decode ⟨0x00000002#32, []⟩ = .ok .rbPop ∧
  decode ⟨0x00030003#32, []⟩ = .ok (.rbReadExact 3#16) ∧ decode ⟨0x00000004#32, []⟩ = .ok .rbSize ∧
  decode ⟨0x00000005#32, []⟩ = .ok .rbRemaining ∧ decode ⟨0x00000006#32, []⟩ = .ok .rbDrops ∧
  decode ⟨0x00010110#32, [0x00#8]⟩ = .ok (.fcEncode 0x01#8 [0x00#8]) ∧
  decode ⟨0x00010011#32, [0x00#8]⟩ = .ok (.fcDecode [0x00#8]) ∧
  decode ⟨0x00010021#32, [0x00#8]⟩ = .ok (.bcUnchunk [0x00#8]) ∧
  (∀ bm : List Byte, bm.length = 12000 → decode ⟨0x00010020#32, 0x07#8 :: bm⟩ = .ok (.bcChunk [0x07#8] bm)) ∧
  decode ⟨0x00010002#32, []⟩ = .error .illegalOp ∧ decode ⟨0x00000007#32, []⟩ = .error .illegalOp ∧
  decode ⟨0x00010011#32, []⟩ = .error .dataLengthMismatch

/-- 30_encoding.md R60, 20_memory.md R43: where the fields of a request header stand, and the order of its bytes. -/
def Obligations.HeaderFieldPlaces : Prop :=
  (∀ (o i : Byte) (l : Half), (headerOf o i l).opcode = o ∧ (headerOf o i l).imm8 = i ∧ (headerOf o i l).len16 = l ∧
    (headerOf o i l).toNat = o.toNat + 2 ^ 8 * i.toNat + 2 ^ 16 * l.toNat) ∧
  (∀ r : Request, Request.ofBytes r.toBytes = some r) ∧
  (∀ (h : Word) (j : Nat), j < 4 → (Word.toBytes h)[j]? = some (h.extractLsb' (8 * j) 8))

/-- 30_encoding.md R64 to R66: where the fields of a response header stand; the nine status codes and three tag codes. -/
def Obligations.ResponseHeaderLayout : Prop :=
  (∀ r : Response, r.header.extractLsb' 0 4 = r.status.code ∧ r.header.extractLsb' 4 2 = r.tag.field ∧
    r.header.extractLsb' 6 2 = 0#2 ∧ r.header.extractLsb' 8 8 = r.aux8 ∧ r.header.extractLsb' 16 16 = r.len16) ∧
  (Status.code .ok = 0#4 ∧ Status.code .noData = 1#4 ∧ Status.code .truncated = 2#4 ∧
    Status.code .payloadOverflow = 3#4 ∧ Status.code .payloadTooLarge = 4#4 ∧ Status.code .badRowCount = 5#4 ∧
    Status.code .badRowIndex = 6#4 ∧ Status.code .badLength = 7#4 ∧ Status.code .illegalOp = 8#4) ∧
  (CommandTag.field .invalid = 0#2 ∧ CommandTag.field .screenBuffer = 1#2 ∧ CommandTag.field .ack = 2#2)

/-! ## Ring Buffer -/

/-- 10_state.md R22: each cursor is below RB_N and fits its width, at most 16 bits. -/
def Obligations.CursorsFitTheirWidth : Prop :=
  ∀ s : State, s.Inv → s.rbWr < s.rbN ∧ s.rbRd < s.rbN ∧ s.rbWr < 2 ^ Config.cursorWidth s.rbN ∧
    s.rbRd < 2 ^ Config.cursorWidth s.rbN ∧ Config.cursorWidth s.rbN ≤ 16

/-- 10_state.md R24: full and empty, from the size; the size, without a remainder. -/
def Obligations.FullAndEmptyFromSize : Prop :=
  ∀ s : State, s.Inv → (s.full ↔ s.size = s.rbN - 1) ∧ (s.empty ↔ s.size = 0) ∧
    s.size = (if s.rbRd ≤ s.rbWr then s.rbWr - s.rbRd else s.rbWr + s.rbN - s.rbRd) ∧
    s.remaining = s.rbN - s.size - 1

/-- 10_state.md R26: the contents are the slots from rb_rd on, each of them written. -/
def Obligations.ContentsAreTheSlotsFromRead : Prop :=
  ∀ s : State, s.Inv → s.contents.length = s.size ∧
    ∀ j, j < s.size → s.contents[j]? = s.rb.read ((s.rbRd + j) % s.rbN) ∧ (s.contents[j]?).isSome = true

/-- 41_ring_buffer.md R111, with its frame: the slot written is the one at the old rb_wr. -/
def Obligations.PushEffect : Prop :=
  ∀ (s : State) (v : Byte), s.Inv →
    ∃ t, exec (.rbPush v) s = .next t ∧ t.rb.read s.rbWr = some v ∧
      (∀ x, x ≠ s.rbWr → t.rb.read x = s.rb.read x) ∧ t.rbWr = (s.rbWr + 1) % s.rbN ∧ t.rbN = s.rbN ∧
      s.sameButResponse t ∧
      ((s.rbWr + 1) % s.rbN = s.rbRd →
        t.rbRd = (s.rbRd + 1) % s.rbN ∧ t.rbDrops.toNat = min (s.rbDrops.toNat + 1) 0xFFFF ∧
        t.response = some ⟨.ok, .invalid, 0x01#8, 0#16, []⟩) ∧
      ((s.rbWr + 1) % s.rbN ≠ s.rbRd →
        t.rbRd = s.rbRd ∧ t.rbDrops = s.rbDrops ∧ t.response = some ⟨.ok, .invalid, 0x00#8, 0#16, []⟩)

/-- 41_ring_buffer.md R112, with its frame: every slot, the write cursor and the counter are unchanged. -/
def Obligations.PopEffect : Prop :=
  ∀ s : State, s.Inv →
    (s.rbWr = s.rbRd →
      ∃ t, exec .rbPop s = .next t ∧ s.sameBlock t ∧ s.sameButResponse t ∧
        t.response = some ⟨.noData, .invalid, 0#8, 0#16, []⟩) ∧
    (s.rbWr ≠ s.rbRd →
      ∃ t v, exec .rbPop s = .next t ∧ s.rb.read s.rbRd = some v ∧ t.rbRd = (s.rbRd + 1) % s.rbN ∧
        (∀ x, t.rb.read x = s.rb.read x) ∧ t.rbWr = s.rbWr ∧ t.rbDrops = s.rbDrops ∧ t.rbN = s.rbN ∧
        s.sameButResponse t ∧ t.response = some ⟨.ok, .invalid, v, 0#16, []⟩)

/-- 41_ring_buffer.md R113, with its frame. -/
def Obligations.ReadExactEffect : Prop :=
  ∀ (s : State) (n : Half), s.Inv →
    (s.size < n.toNat →
      ∃ t, exec (.rbReadExact n) s = .next t ∧ s.sameBlock t ∧ s.sameButResponse t ∧
        t.response = some ⟨.noData, .invalid, 0#8, 0#16, []⟩) ∧
    (n.toNat ≤ s.size →
      ∃ t out, exec (.rbReadExact n) s = .next t ∧ out.length = n.toNat ∧
        (∀ j, j < n.toNat → out[j]? = s.rb.read ((s.rbRd + j) % s.rbN)) ∧
        t.rbRd = (s.rbRd + n.toNat) % s.rbN ∧ (∀ x, t.rb.read x = s.rb.read x) ∧ t.rbWr = s.rbWr ∧
        t.rbDrops = s.rbDrops ∧ t.rbN = s.rbN ∧ s.sameButResponse t ∧
        t.response = some ⟨.ok, .invalid, 0#8, n, out⟩)

/-- 41_ring_buffer.md R114, R115: `len16` holds the size, and the room left, exactly; nothing is written. -/
def Obligations.SizeAndRemainingAnswers : Prop :=
  ∀ s : State, s.Inv →
    (∃ t l, exec .rbSize s = .next t ∧ s.sameBlock t ∧ s.sameButResponse t ∧
      t.response = some ⟨.ok, .invalid, 0#8, l, []⟩ ∧
      (l.toNat : Int) = ((s.rbWr : Int) - (s.rbRd : Int)) % (s.rbN : Int)) ∧
    (∃ t l, exec .rbRemaining s = .next t ∧ s.sameBlock t ∧ s.sameButResponse t ∧
      t.response = some ⟨.ok, .invalid, 0#8, l, []⟩ ∧ l.toNat = s.rbN - s.size - 1)

/-- 41_ring_buffer.md R116: `len16` is the counter, which reading does not clear. -/
def Obligations.DropsAnswer : Prop :=
  ∀ s : State, ∃ t, exec .rbDrops s = .next t ∧ s.sameBlock t ∧ s.sameButResponse t ∧
    t.response = some ⟨.ok, .invalid, 0#8, s.rbDrops, []⟩

/-- 41_ring_buffer.md R113: RB_READ_EXACT of `n` has the effect of `n` RB_POPs, and gives the same bytes. -/
def Obligations.ReadExactEqualsPops : Prop :=
  ∀ (s : State) (n : Half), s.Inv → n.toNat ≤ s.size →
    ∃ t u rs p, exec (.rbReadExact n) s = .next t ∧ runOps (List.replicate n.toNat .rbPop) s = some (u, rs) ∧
      t.sameBlock u ∧ t.response = some p ∧ p.data = rs.map (·.aux8) ∧ ∀ r ∈ rs, r.status = .ok

/-- 41_ring_buffer.md R118: what each operation does to the contents Q. -/
def Obligations.QueueAbstraction : Prop :=
  ∀ s : State, s.Inv →
    (∀ v, ∃ t, exec (.rbPush v) s = .next t ∧
      t.contents = (if s.contents.length = s.rbN - 1 then s.contents.tail else s.contents) ++ [v]) ∧
    (∀ b Q, s.contents = b :: Q →
      ∃ t, exec .rbPop s = .next t ∧ t.response = some ⟨.ok, .invalid, b, 0#16, []⟩ ∧ t.contents = Q) ∧
    (∀ n : Half, n.toNat ≤ s.contents.length →
      ∃ t, exec (.rbReadExact n) s = .next t ∧
        t.response = some ⟨.ok, .invalid, 0#8, n, s.contents.take n.toNat⟩ ∧ t.contents = s.contents.drop n.toNat)

/-- 41_ring_buffer.md R119, the overwrite law: pushing `vs` with no pop in between keeps the newest RB_N - 1 bytes and
answers DROPPED once for each byte lost; RB_N bytes pushed into an empty buffer lose exactly the first. -/
def Obligations.OverwriteLaw : Prop :=
  ∀ (s : State) (vs : List Byte), s.Inv →
    ∃ t rs, runOps (rbPushs vs) s = some (t, rs) ∧
      t.contents = (s.contents ++ vs).drop (s.size + vs.length - (s.rbN - 1)) ∧
      dropCount (rbPushs vs) rs = s.size + vs.length - (s.rbN - 1) ∧ t.size ≤ t.rbN - 1 ∧
      (s.size = 0 → vs.length = s.rbN → dropCount (rbPushs vs) rs = 1 ∧ t.contents = vs.tail)

/-- 41_ring_buffer.md R120: states with the same contents and counter answer every sequence of operations alike,
whatever their cursors; so the cursors' reset value cannot be observed. -/
def Obligations.EqualViewsGiveEqualAnswers : Prop :=
  (∀ (is : List Instr) (s t : State), s.Inv → t.Inv → s.sameView t →
    ∃ s' t' rs, runOps is s = some (s', rs) ∧ runOps is t = some (t', rs) ∧ s'.sameView t') ∧
  (∀ (is : List Instr) (n c : Nat), Config.legalSlots n → c < n →
    ∃ s' t' rs, runOps is (State.resetWith n) = some (s', rs) ∧
      runOps is { State.resetWith n with rbWr := c, rbRd := c } = some (t', rs))

/-- 41_ring_buffer.md R121: from reset, the counter is the number of RB_PUSHes answered with DROPPED, saturating. -/
def Obligations.DropCounterCountsDroppedPushes : Prop :=
  ∀ (n : Nat) (is : List Instr), Config.legalSlots n →
    ∃ t rs, runOps is (State.resetWith n) = some (t, rs) ∧ t.rbDrops.toNat = min 0xFFFF (dropCount is rs)

/-- 60_exceptions.md R156, 20_memory.md R51: no sequence of operations stops the block; each gets one response. -/
def Obligations.OperationsNeverStop : Prop :=
  ∀ (is : List Instr) (s : State), s.Inv →
    ∃ t rs, runOps is s = some (t, rs) ∧ rs.length = is.length ∧ t.Inv

/-- 70_reset_and_hazards.md R177: pushes between a consumer's RB_SIZE and its RB_READ_EXACT of at most that size do not
make the read fail. -/
def Obligations.ReadOfASeenSizeSucceeds : Prop :=
  ∀ (s : State) (vs : List Byte) (n : Half), s.Inv → n.toNat ≤ s.size →
    ∃ t rs u out, runOps (rbPushs vs) s = some (t, rs) ∧ s.size ≤ t.size ∧ exec (.rbReadExact n) t = .next u ∧
      u.response = some ⟨.ok, .invalid, 0#8, n, out⟩ ∧ out.length = n.toNat

/-! ## All operations: frames, statuses, response streams -/

/-- 10_state.md R37, 20_memory.md R47: RB_SIZE, RB_REMAINING, RB_DROPS, FC_ENCODE, FC_DECODE, BC_CHUNK and BC_UNCHUNK
answer from every state and write no block state, and repeating one gives the same response. -/
def Obligations.StatelessOperationsFrame : Prop :=
  ∀ (i : Instr) (s : State), isStateless i = true →
    ∃ t u, exec i s = .next t ∧ s.sameBlock t ∧ s.sameButResponse t ∧
      exec i t = .next u ∧ u.response = t.response

/-- Every operation leaves the interface alone but for the response of the agent it serves, which it sets, and RB_N
(00_scope.md R12). -/
def Obligations.ExecTouchesOnlyItsResponse : Prop :=
  ∀ (i : Instr) (s t : State), exec i s = .next t →
    s.sameButResponse t ∧ t.rbN = s.rbN ∧ t.response.isSome = true

/-- 10_state.md R21 to R23: only RB_PUSH writes a slot, rb_wr or rb_drops, and no operation lowers rb_drops. -/
def Obligations.OnlyPushWritesSlots : Prop :=
  ∀ (i : Instr) (s t : State), exec i s = .next t →
    s.rbDrops.toNat ≤ t.rbDrops.toNat ∧
    ((∀ v, i ≠ .rbPush v) → (∀ x, t.rb.read x = s.rb.read x) ∧ t.rbWr = s.rbWr ∧ t.rbDrops = s.rbDrops)

/-- 60_exceptions.md R151: a response with a status other than OK writes no state, and its other fields are empty. -/
def Obligations.FailuresArePrecise : Prop :=
  ∀ (i : Instr) (s t : State) (r : Response), exec i s = .next t → t.response = some r → r.status ≠ .ok →
    s.sameBlock t ∧ r = ⟨r.status, .invalid, 0#8, 0#16, []⟩

/-- 60_exceptions.md R153: the statuses each operation can answer with. 30_encoding.md R66: the tag field is not zero
in an OK response to FC_DECODE alone. -/
def Obligations.StatusesPerOperation : Prop :=
  ∀ (i : Instr) (s t : State), exec i s = .next t →
    ∃ r, t.response = some r ∧ r.status ∈ possibleStatuses i ∧
      (r.tag ≠ .invalid → (∃ F, i = .fcDecode F) ∧ r.status = .ok)

/-- 20_memory.md R55, 30_encoding.md R67: an OK response's data stream has exactly the length its fields imply. -/
def Obligations.ResponseStreamLengths : Prop :=
  ∀ (i : Instr) (s t : State) (r : Response), i.wellFormed = true → exec i s = .next t → t.response = some r →
    r.status = .ok →
    match i with
    | .rbPush _ => r.data = []
    | .rbPop => r.data = []
    | .rbReadExact n => r.len16 = n ∧ r.data.length = r.len16.toNat
    | .rbSize => r.data = []
    | .rbRemaining => r.data = []
    | .rbDrops => r.data = []
    | .fcEncode _ _ => r.data.length = r.len16.toNat ∧ 2 ≤ r.len16.toNat ∧ r.len16.toNat ≤ 258
    | .fcDecode _ => r.data.length = r.len16.toNat ∧ r.len16.toNat ≤ 254
    | .bcChunk rows _ =>
      r.len16.toNat = packetCount rows.length ∧ 1 ≤ r.len16.toNat ∧ r.len16.toNat ≤ 49 ∧
        r.data.length = bulkLength rows.length + 2 * r.len16.toNat
    | .bcUnchunk _ => r.data.length = r.len16.toNat ∧ r.len16.toNat = 51 * r.aux8.toNat

/-! ## Frame Codec -/

/-- 40_frame_codec.md R82: the frame ends in its one zero byte and meets the length bound; at length 0 it is
`[0x01, 0x00]`. -/
def Obligations.EncodeProperties : Prop :=
  (∀ S : List Byte, 1 ≤ S.length → S.length ≤ 255 →
    ∃ body, cobsEncode S = body ++ [0x00#8] ∧ zeroFree body ∧ 1 ≤ body.length ∧
      (cobsEncode S).length ≤ S.length + ceilDiv S.length 254 + 1) ∧
  cobsEncode [] = [0x01#8, 0x00#8]

/-- 40_frame_codec.md R83: an input whose last byte completes a full run gets the run's block and no further one. (A
unit has at most 255 bytes, so such an input is the run alone or a zero and the run.) -/
def Obligations.EncodeFullRunAtEnd : Prop :=
  ∀ run : List Byte, run.length = 254 → zeroFree run →
    cobsEncode run = 0xFF#8 :: run ++ [0x00#8] ∧
    cobsEncode (0x00#8 :: run) = 0x01#8 :: 0xFF#8 :: run ++ [0x00#8]

/-- 40_frame_codec.md R98: the exact frame length, from the zeros of the input and its segments. Above 255 bytes, where
R81 defines no frame, it is about the model's own extension (log 13). -/
def Obligations.FrameLengthFormula : Prop :=
  ∀ S : List Byte, (cobsEncode S).length + S.count 0x00#8 = S.length + blocksOf (segments [] S) + 1

/-- 40_frame_codec.md R81: the model's encoder is the spec's loop, on the inputs of at most 255 bytes that R81 gives it
and on the longer ones of the model's own extension (log 13). -/
def Obligations.EncodeIsTheSpecLoop : Prop :=
  ∀ S : List Byte, cobsEncode S = encodeLoop [] [] S

/-- 40_frame_codec.md R85, R88: the model's decoder is the spec's loop, its errors in the loop's order. -/
def Obligations.DecodeIsTheSpecLoop : Prop :=
  ∀ F : List Byte, cobsDecode F = decodeByLoop F

/-- 40_frame_codec.md R90: the byte-level round trip. -/
def Obligations.ByteRoundTrip : Prop :=
  ∀ S : List Byte, S.length ≤ 255 → cobsDecode (cobsEncode S) = .ok S

/-- 40_frame_codec.md R91: after a final `0xFF` block an empty block changes nothing for the decoder, and the encoder
never produces it. -/
def Obligations.NonCanonicalTail : Prop :=
  ∀ B D : List Byte, zeroFree B → [0xFF#8] <:+ codeBytes B 0 → cobsDecode (B ++ [0x00#8]) = .ok D →
    cobsDecode (B ++ [0x01#8, 0x00#8]) = .ok D ∧
    ∀ S : List Byte, S.length ≤ 255 → cobsEncode S ≠ B ++ [0x01#8, 0x00#8]

/-- 40_frame_codec.md R91: every other accepted body is the encoding of what it decodes to. -/
def Obligations.AcceptedBodiesReencode : Prop :=
  ∀ B D : List Byte, zeroFree B → cobsDecode (B ++ [0x00#8]) = .ok D → ¬ endsFullThenEmpty B →
    cobsEncode D = B ++ [0x00#8]

/-- 40_frame_codec.md R85 to R87: no delimiter, an empty body and a first pointer past the body are TRUNCATED; bytes
after the delimiter are ignored; a decoded unit never exceeds the capacity. -/
def Obligations.MalformedFrames : Prop :=
  (∀ F : List Byte, zeroFree F → cobsDecode F = .error .truncated) ∧
  (∀ F : List Byte, cobsDecode (0x00#8 :: F) = .error .truncated) ∧
  (∀ (c : Byte) (B F : List Byte), zeroFree (c :: B) → B.length + 1 < c.toNat →
    cobsDecode (c :: B ++ 0x00#8 :: F) = .error .truncated) ∧
  (∀ B F : List Byte, zeroFree B → cobsDecode (B ++ 0x00#8 :: F) = cobsDecode (B ++ [0x00#8])) ∧
  (∀ F D : List Byte, cobsDecode F = .ok D → D.length ≤ 255)

/-- 40_frame_codec.md R94: FC_ENCODE, both outcomes. -/
def Obligations.FcEncodeResult : Prop :=
  ∀ (cmd : Byte) (p : List Byte) (s : State),
    (p.length ≤ 254 →
      ∃ E, E = cobsEncode (cmd :: p) ∧ 2 ≤ E.length ∧ E.length ≤ 258 ∧
        exec (.fcEncode cmd p) s = .next (s.respond .ok .invalid 0#8 (BitVec.ofNat 16 E.length) E)) ∧
    (254 < p.length → exec (.fcEncode cmd p) s = .next (s.raise .payloadTooLarge))

/-- 40_frame_codec.md R95: FC_DECODE, by what CobsDecode gives. -/
def Obligations.FcDecodeResult : Prop :=
  ∀ (F : List Byte) (s : State),
    (∀ c p, cobsDecode F = .ok (c :: p) →
      exec (.fcDecode F) s = .next (s.respond .ok (tagOf c) c (BitVec.ofNat 16 p.length) p)) ∧
    (cobsDecode F = .ok [] → exec (.fcDecode F) s = .next (s.raise .truncated)) ∧
    (∀ e, cobsDecode F = .error e → exec (.fcDecode F) s = .next (s.raise e))

/-- 40_frame_codec.md R93: the frame FC_ENCODE gives for a command byte and a payload decodes, by FC_DECODE, to that
byte, its tag and that payload; for a tag's own code the tag comes back. -/
def Obligations.PacketRoundTrip : Prop :=
  (∀ (b : Byte) (p : List Byte) (s : State), p.length ≤ 254 →
    ∃ t E, exec (.fcEncode b p) s = .next t ∧
      t.response = some ⟨.ok, .invalid, 0#8, BitVec.ofNat 16 E.length, E⟩ ∧
      ∀ u : State, exec (.fcDecode E) u = .next (u.respond .ok (tagOf b) b (BitVec.ofNat 16 p.length) p)) ∧
  (∀ tag : CommandTag, tagOf (codeOf tag) = tag)

/-- 40_frame_codec.md R84: the tag mapping. The first two clauses are sentences the spec marks as derived from R84's own
functions: "`TagOf(CodeOf(t)) = t` for every tag. `CodeOf(TagOf(b)) = b` only for `b ∈ {0x00, 0x01, 0x02}`". -/
def Obligations.TagMapping : Prop :=
  (∀ tag : CommandTag, tagOf (codeOf tag) = tag) ∧
  (∀ b : Byte, codeOf (tagOf b) = b ↔ b ∈ [0x00#8, 0x01#8, 0x02#8]) ∧
  (∀ b : Byte, tagOf b = .invalid ↔ b ≠ 0x01#8 ∧ b ≠ 0x02#8) ∧
  (codeOf .invalid = 0x00#8 ∧ codeOf .screenBuffer = 0x01#8 ∧ codeOf .ack = 0x02#8)

/-! ## Bulk Transfer Chunker -/

/-- 42_chunker.md R133, R134: BC_CHUNK, its result and its two errors in their order. For a bitmap of other than 12000
bytes, which no request carries, the result is the model's own choice (log 15). -/
def Obligations.BcChunkResult : Prop :=
  ∀ (rows bm : List Byte) (s : State),
    (rows.length ≤ 240 → (∀ r ∈ rows, r.toNat < 240) →
      exec (.bcChunk rows bm) s = .next (s.respond .ok .invalid 0#8 (BitVec.ofNat 16 (packetCount rows.length))
        ((packetPayloads (bulkPayload bm rows) (packetCount rows.length)).flatMap packetRecord))) ∧
    (240 < rows.length → exec (.bcChunk rows bm) s = .next (s.raise .badRowCount)) ∧
    (rows.length ≤ 240 → (∃ r ∈ rows, 240 ≤ r.toNat) → exec (.bcChunk rows bm) s = .next (s.raise .badRowIndex))

/-- 42_chunker.md R135, R132: as many records as the count says, their payloads together are the bulk payload, each of
1 to 254 bytes and every one but the last full, and FC_ENCODE takes each record. -/
def Obligations.ChunkCompleteness : Prop :=
  ∀ (rows bm : List Byte) (s : State), legalUpdate rows bm →
    ∃ (t : State) (ps : List (List Byte)), exec (.bcChunk rows bm) s = .next t ∧
      t.response = some ⟨.ok, .invalid, 0#8, BitVec.ofNat 16 ps.length, ps.flatMap packetRecord⟩ ∧
      ps.length = packetCount rows.length ∧ ps.flatten = bulkPayload bm rows ∧
      (∀ p ∈ ps, 1 ≤ p.length ∧ p.length ≤ 254) ∧
      (∀ j p, ps[j]? = some p → j + 1 < ps.length → p.length = 254) ∧
      (∀ p, ps.getLast? = some p → p.length = lastPayloadLength rows.length) ∧
      (∀ p ∈ ps, ∀ u : State, ∃ v r, exec (.fcEncode 0x01#8 p) u = .next v ∧ v.response = some r ∧
        r.status = .ok ∧ r.data.length ≤ 258)

/-- 42_chunker.md R131, 30_encoding.md R72: the layout and length of the bulk payload, and the spec's table of counts. -/
def Obligations.BulkPayloadLayout : Prop :=
  (∀ rows bm : List Byte, legalUpdate rows bm →
    (bulkPayload bm rows).length = 1 + 51 * rows.length ∧
    (bulkPayload bm rows)[0]? = some (BitVec.ofNat 8 rows.length) ∧
    slice (bulkPayload bm rows) 1 (1 + rows.length) = rows ∧
    (∀ i r, rows[i]? = some r →
      slice (bulkPayload bm rows) (1 + rows.length + 50 * i) (1 + rows.length + 50 * i + 50) = bitmapRow bm r ∧
      (bitmapRow bm r).length = 50)) ∧
  (packetCount 0 = 1 ∧ packetCount 4 = 1 ∧ packetCount 5 = 2 ∧ packetCount 240 = 49) ∧
  (lastPayloadLength 0 = 1 ∧ lastPayloadLength 4 = 205 ∧ lastPayloadLength 5 = 2 ∧ lastPayloadLength 240 = 49)

/-- 42_chunker.md R136, R137: BC_UNCHUNK, its checks in their order and its result, the payload less its count byte. -/
def Obligations.BcUnchunkResult : Prop :=
  ∀ s : State,
    exec (.bcUnchunk []) s = .next (s.raise .badLength) ∧
    ∀ (N : Byte) (P : List Byte),
      (240 < N.toNat → exec (.bcUnchunk (N :: P)) s = .next (s.raise .badRowCount)) ∧
      (N.toNat ≤ 240 → P.length ≠ 51 * N.toNat → exec (.bcUnchunk (N :: P)) s = .next (s.raise .badLength)) ∧
      (N.toNat ≤ 240 → P.length = 51 * N.toNat → (∃ r ∈ P.take N.toNat, 240 ≤ r.toNat) →
        exec (.bcUnchunk (N :: P)) s = .next (s.raise .badRowIndex)) ∧
      (N.toNat ≤ 240 → P.length = 51 * N.toNat → (∀ r ∈ P.take N.toNat, r.toNat < 240) →
        exec (.bcUnchunk (N :: P)) s = .next (s.respond .ok .invalid N (BitVec.ofNat 16 (51 * N.toNat)) P))

/-- 42_chunker.md R138: BC_UNCHUNK of the concatenated payloads of BC_CHUNK's records gives the update back. -/
def Obligations.ChunkUnchunkRoundTrip : Prop :=
  ∀ (rows bm : List Byte) (s : State), legalUpdate rows bm →
    ∃ (t : State) (ps : List (List Byte)), exec (.bcChunk rows bm) s = .next t ∧
      t.response = some ⟨.ok, .invalid, 0#8, BitVec.ofNat 16 ps.length, ps.flatMap packetRecord⟩ ∧
      ∀ u : State, exec (.bcUnchunk ps.flatten) u =
        .next (u.respond .ok .invalid (BitVec.ofNat 8 rows.length) (BitVec.ofNat 16 (51 * rows.length))
          (rows ++ rows.flatMap (bitmapRow bm)))
end

