-- ==== Sys2Proof/Laws/Chunk.lean ====
section
/-! SUPPORT. Slices, rows and packets: their lengths, and that consecutive slices join. -/

namespace Sys2Proof.Machine

@[simp] theorem slice_length (S : List Byte) (a b : Nat) : (slice S a b).length = min (b - a) (S.length - a) := by
  simp [slice]

/-- Consecutive slices join to one (00_scope.md R17). -/
theorem slice_append_slice (S : List Byte) {a b c : Nat} (hab : a ≤ b) (hbc : b ≤ c) :
    slice S a b ++ slice S b c = slice S a c := by
  unfold slice
  rw [show c - a = (b - a) + (c - b) by omega, List.take_add, List.drop_drop, show a + (b - a) = b by omega]

/-- The slice from 0 to the end is the whole. -/
theorem slice_whole (S : List Byte) {n : Nat} (h : S.length ≤ n) : slice S 0 n = S := by
  simp [slice, List.take_of_length_le h]

/-- A row of a whole bitmap has 50 bytes (00_scope.md R14). -/
theorem bitmapRow_length {bm : List Byte} (hbm : bm.length = 12000) {r : Byte} (hr : r.toNat < 240) :
    (bitmapRow bm r).length = 50 := by
  simp only [bitmapRow, slice_length, Config.wRow, hbm]; omega

/-- The rows of an update have 50 bytes each (42_chunker.md R131). -/
theorem rows_length {bm : List Byte} (hbm : bm.length = 12000) {rows : List Byte} (h : ∀ r ∈ rows, r.toNat < 240) :
    (rows.flatMap (bitmapRow bm)).length = 50 * rows.length := by
  induction rows with
  | nil => rfl
  | cons r rows ih =>
    have h1 := bitmapRow_length hbm (h r (by simp))
    have h2 := ih fun x hx => h x (by simp [hx])
    simp only [List.flatMap_cons, List.length_append, List.length_cons, h1, h2]; omega

theorem ceilDiv_mul_ge (a : Nat) : a ≤ 254 * ceilDiv a 254 := by unfold ceilDiv; omega

theorem ceilDiv_mul_lt (a : Nat) (h : 0 < a) : 254 * (ceilDiv a 254 - 1) < a := by unfold ceilDiv; omega

/-- BC_CHUNK fails with BAD_ROW_COUNT or BAD_ROW_INDEX and nothing else (42_chunker.md R134). -/
theorem chunk_error {rows bm : List Byte} {e : Status} (h : chunk rows bm = .error e) :
    e = .badRowCount ∨ e = .badRowIndex := by
  unfold chunk at h
  split at h
  · cases h; exact .inl rfl
  · split at h
    · cases h; exact .inr rfl
    · cases h

/-- BC_UNCHUNK fails with BAD_LENGTH, BAD_ROW_COUNT or BAD_ROW_INDEX and nothing else (42_chunker.md R136). -/
theorem unchunk_error {P : List Byte} {e : Status} (h : unchunk P = .error e) :
    e = .badLength ∨ e = .badRowCount ∨ e = .badRowIndex := by
  unfold unchunk at h
  split at h
  · cases h; exact .inl rfl
  · split at h
    · cases h; exact .inr (.inl rfl)
    · split at h
      · cases h; exact .inl rfl
      · simp only at h
        split at h
        · cases h; exact .inr (.inr rfl)
        · cases h

@[simp] theorem legalRow_iff (r : Byte) : legalRow r = true ↔ r.toNat < 240 := by
  unfold legalRow
  rw [decide_eq_true_eq]
  rfl

/-- The check for an illegal index finds one exactly when there is one (42_chunker.md R134). -/
theorem any_illegal_row {rows : List Byte} : rows.any (fun r => !legalRow r) = true ↔ ∃ r ∈ rows, 240 ≤ r.toNat := by
  simp only [List.any_eq_true, Bool.not_eq_true', ← Bool.not_eq_true, legalRow_iff, Nat.not_lt]

/-- The check for an illegal index finds none exactly when every index is legal (42_chunker.md R134). -/
theorem no_illegal_row {rows : List Byte} : rows.any (fun r => !legalRow r) = false ↔ ∀ r ∈ rows, r.toNat < 240 := by
  rw [← Bool.not_eq_true, any_illegal_row]
  simp only [not_exists, not_and, Nat.not_le]

end Sys2Proof.Machine
end

