-- ==== Sys2Proof/Laws/Codec.lean ====
section
/-! SUPPORT. The Frame Codec's functions step by step: where a frame's body ends, one block of the encoder, one block of
the decoder. -/

namespace Sys2Proof.Machine

/-- A sequence without a delimiter has no body. -/
theorem frameBody_of_zeroFree {F : List Byte} (h : zeroFree F) : frameBody F = none := by
  induction F with
  | nil => rfl
  | cons b rest ih =>
    have hb : b ≠ 0x00#8 := h b (by simp)
    simp [frameBody, hb, ih fun c hc => h c (by simp [hc])]

/-- The body ends at the first delimiter, whatever follows. -/
theorem frameBody_append {B : List Byte} (h : zeroFree B) (F : List Byte) :
    frameBody (B ++ 0x00#8 :: F) = some B := by
  induction B with
  | nil => simp [frameBody]
  | cons b rest ih =>
    have hb : b ≠ 0x00#8 := h b (by simp)
    simp [frameBody, hb, ih fun c hc => h c (by simp [hc])]

/-- Every sequence is without a delimiter or splits at its first one. -/
theorem zeroFree_or_split (F : List Byte) : zeroFree F ∨ ∃ B G, zeroFree B ∧ F = B ++ 0x00#8 :: G := by
  induction F with
  | nil => exact .inl (by simp [zeroFree])
  | cons b rest ih =>
    by_cases hb : b = 0x00#8
    · exact .inr ⟨[], rest, by simp [zeroFree], by simp [hb]⟩
    · rcases ih with h | ⟨B, G, h, rfl⟩
      · exact .inl fun c hc => by
          rcases List.mem_cons.1 hc with rfl | hc
          exacts [hb, h c hc]
      · refine .inr ⟨b :: B, G, fun c hc => ?_, rfl⟩
        rcases List.mem_cons.1 hc with rfl | hc
        exacts [hb, h c hc]

/-- CobsDecode of a frame with a non-empty body walks the body, whatever follows the delimiter. -/
theorem cobsDecode_body {c : Byte} {B : List Byte} (h : zeroFree (c :: B)) (F : List Byte) :
    cobsDecode (c :: B ++ 0x00#8 :: F) = cobsWalk (c :: B) 0 [] := by
  unfold cobsDecode
  rw [frameBody_append h]

/-- The code byte of a block of at most 254 bytes is its length plus one. -/
theorem blockCode_toNat {blk : List Byte} (h : blk.length ≤ 254) : (blockCode blk).toNat = blk.length + 1 := by
  simp [blockCode, Nat.mod_eq_of_lt (show blk.length + 1 < 256 by omega)]

/-! ## One block of the encoder -/

theorem cobsBlocks_nil (blk : List Byte) : cobsBlocks blk [] = blockCode blk :: blk ++ [0x00#8] := rfl

/-- A zero closes the block. -/
theorem cobsBlocks_zero (blk rest : List Byte) :
    cobsBlocks blk (0x00#8 :: rest) = blockCode blk :: blk ++ cobsBlocks [] rest := by
  simp [cobsBlocks]

/-- A non-zero byte that does not fill the block joins it. -/
theorem cobsBlocks_join {blk : List Byte} {b : Byte} (rest : List Byte) (hb : b ≠ 0x00#8) (hl : blk.length + 1 ≠ 254) :
    cobsBlocks blk (b :: rest) = cobsBlocks (blk ++ [b]) rest := by
  have : blk.length ≠ 253 := by omega
  simp [cobsBlocks, hb, Config.maxRun, this]

/-- The 254th byte closes the block with `0xFF`; at the end of the input nothing but the delimiter follows (R83). -/
theorem cobsBlocks_full_last {blk : List Byte} {b : Byte} (hb : b ≠ 0x00#8) (hl : blk.length = 253) :
    cobsBlocks blk [b] = 0xFF#8 :: (blk ++ [b]) ++ [0x00#8] := by
  simp [cobsBlocks, hb, Config.maxRun, hl]

/-- The 254th byte closes the block with `0xFF`; a new block begins with the byte after it. -/
theorem cobsBlocks_full_more {blk : List Byte} {b d : Byte} (rest : List Byte) (hb : b ≠ 0x00#8)
    (hl : blk.length = 253) :
    cobsBlocks blk (b :: d :: rest) = 0xFF#8 :: (blk ++ [b]) ++ cobsBlocks [] (d :: rest) := by
  rw [cobsBlocks]
  simp [hb, Config.maxRun, hl]

/-! ## One block of the decoder -/

/-- The bytes of the block last appended are passed over. -/
theorem cobsWalk_skip (blk rest D : List Byte) : cobsWalk (blk ++ rest) blk.length D = cobsWalk rest 0 D := by
  induction blk with
  | nil => rfl
  | cons b blk ih => simpa [cobsWalk] using ih

/-- The last block of a body: appended, with no zero after it. -/
theorem cobsWalk_last {c : Byte} {blk D : List Byte} (hc : c.toNat = blk.length + 1)
    (hD : D.length + blk.length ≤ 255) : cobsWalk (c :: blk) 0 D = .ok (D ++ blk) := by
  have hskip := cobsWalk_skip blk [] (D ++ blk)
  have hr : c.toNat - 1 = blk.length := by omega
  have hd : ¬ Config.decCap < D.length + blk.length := by simp [Config.decCap]; omega
  simp only [List.append_nil] at hskip
  simp [cobsWalk, hr, hd, hskip]

/-- A block below `0xFF` with more after it: appended, with a zero. -/
theorem cobsWalk_more {c d : Byte} {blk rest D : List Byte} (hc : c.toNat = blk.length + 1) (hc' : c.toNat < 255)
    (hD : D.length + blk.length + 1 ≤ 255) :
    cobsWalk (c :: (blk ++ d :: rest)) 0 D = cobsWalk (d :: rest) 0 (D ++ blk ++ [0x00#8]) := by
  have hskip := cobsWalk_skip blk (d :: rest) (D ++ (blk ++ [0x00#8]))
  have hr : c.toNat - 1 = blk.length := by omega
  have hd : ¬ Config.decCap < D.length + blk.length := by simp [Config.decCap]; omega
  have hd' : ¬ Config.decCap < D.length + blk.length + 1 := by simp [Config.decCap]; omega
  simp [cobsWalk, hr, hd, hd', hc', hskip, show ¬ blk.length + (rest.length + 1) < blk.length by omega]

/-- A `0xFF` block with more after it: appended, with no zero. -/
theorem cobsWalk_full {d : Byte} {blk rest D : List Byte} (hl : blk.length = 254) (hD : D.length + blk.length ≤ 255) :
    cobsWalk (0xFF#8 :: (blk ++ d :: rest)) 0 D = cobsWalk (d :: rest) 0 (D ++ blk) := by
  have hskip := cobsWalk_skip blk (d :: rest) (D ++ blk)
  have hd : ¬ Config.decCap < D.length + blk.length := by simp [Config.decCap]; omega
  rw [hl] at hskip hd
  simp [cobsWalk, hd, hl, hskip, List.take_append_of_le_length (Nat.le_of_eq hl.symm), List.take_of_length_le
    (Nat.le_of_eq hl), show ¬ 254 + (rest.length + 1) < 254 by omega]

/-- The walk never decodes more than the capacity (40_frame_codec.md R87). -/
theorem cobsWalk_length {B : List Byte} {k : Nat} {D E : List Byte} (hD : D.length ≤ 255)
    (h : cobsWalk B k D = .ok E) : E.length ≤ 255 := by
  induction B generalizing k D with
  | nil => cases h; exact hD
  | cons c rest ih =>
    cases k with
    | succ k => exact ih hD h
    | zero =>
      simp only [cobsWalk] at h
      split at h
      · cases h
      · split at h
        · cases h
        · rename_i h1 h2
          have hl : (D ++ rest.take (c.toNat - 1)).length ≤ 255 := by
            simp only [Config.decCap, List.length_append, List.length_take] at *; omega
          split at h
          · split at h
            · cases h
            · rename_i h3
              refine ih ?_ h
              rw [List.length_append]
              simp only [Config.decCap, List.length_cons, List.length_nil] at *; omega
          · exact ih hl h

/-- The walk fails with TRUNCATED or PAYLOAD_OVERFLOW and nothing else (60_exceptions.md R152). -/
theorem cobsWalk_error {B : List Byte} {k : Nat} {D : List Byte} {e : Status} (h : cobsWalk B k D = .error e) :
    e = .truncated ∨ e = .payloadOverflow := by
  induction B generalizing k D with
  | nil => cases h
  | cons c rest ih =>
    cases k with
    | succ k => exact ih h
    | zero =>
      simp only [cobsWalk] at h
      split at h
      · cases h; exact .inl rfl
      · split at h
        · cases h; exact .inr rfl
        · split at h
          · split at h
            · cases h; exact .inr rfl
            · exact ih h
          · exact ih h

/-- CobsDecode fails with TRUNCATED or PAYLOAD_OVERFLOW and nothing else. -/
theorem cobsDecode_error {F : List Byte} {e : Status} (h : cobsDecode F = .error e) :
    e = .truncated ∨ e = .payloadOverflow := by
  unfold cobsDecode at h
  split at h
  · cases h; exact .inl rfl
  · cases h; exact .inl rfl
  · exact cobsWalk_error h

end Sys2Proof.Machine
end

