-- ==== Sys2Proof/Laws/Decode.lean ====
section
/-! SUPPORT. The fields of a header built from its fields, and the length test of the decoder. -/

namespace Sys2Proof

@[simp] theorem opcode_headerOf (o i : Byte) (l : Half) : (headerOf o i l).opcode = o := by
  apply BitVec.eq_of_getLsbD_eq
  intro j hj
  simp only [Word.opcode, headerOf, BitVec.getLsbD_extractLsb', BitVec.getLsbD_append]
  simp [hj, show j < 16 by omega]

@[simp] theorem imm8_headerOf (o i : Byte) (l : Half) : (headerOf o i l).imm8 = i := by
  apply BitVec.eq_of_getLsbD_eq
  intro j hj
  simp only [Word.imm8, headerOf, BitVec.getLsbD_extractLsb', BitVec.getLsbD_append]
  simp [hj, show 8 + j < 16 by omega]

@[simp] theorem len16_headerOf (o i : Byte) (l : Half) : (headerOf o i l).len16 = l := by
  apply BitVec.eq_of_getLsbD_eq
  intro j hj
  simp only [Word.len16, headerOf, BitVec.getLsbD_extractLsb', BitVec.getLsbD_append]
  simp [hj]

/-- A header word is built from its three fields. -/
theorem headerOf_fields (h : Word) : headerOf h.opcode h.imm8 h.len16 = h := by
  apply BitVec.eq_of_getLsbD_eq
  intro j hj
  simp only [Word.opcode, Word.imm8, Word.len16, headerOf, BitVec.getLsbD_extractLsb', BitVec.getLsbD_append]
  split
  · split
    · simp [*]
    · rw [show 8 + (j - 8) = j by omega]; simp; omega
  · rw [show 16 + (j - (8 + 8)) = j by omega]; simp; omega

@[simp] theorem fitsLen16_iff (n : Nat) : fitsLen16 n = true ↔ n < 65536 := by simp [fitsLen16]

/-- BC_CHUNK's operands are well formed when the row list fits `len16` and the bitmap is whole. -/
theorem wellFormed_bcChunk {rows bm : List Byte} :
    (Instr.bcChunk rows bm).wellFormed = true ↔ rows.length < 65536 ∧ bm.length = 12000 := by
  simp only [Instr.wellFormed, Bool.and_eq_true, fitsLen16_iff, decide_eq_true_eq]
  rfl

/-- The length test answers whether the data stream has that length. -/
@[simp] theorem hasLength_iff (d : List Byte) (n : Nat) : hasLength d n = true ↔ d.length = n := by
  induction d generalizing n with
  | nil => cases n <;> simp [hasLength]
  | cons b d ih => cases n <;> simp [hasLength, ih]

/-- Data split where the row list ends, and joined again (30_encoding.md R61). -/
theorem take_drop_rows (rows bm : List Byte) : (rows ++ bm).take rows.length = rows ∧ (rows ++ bm).drop rows.length = bm := by
  simp

/-- A length that fits `len16` is what `len16` says. -/
theorem len16_ofNat {n : Nat} (h : n < 65536) : (BitVec.ofNat 16 n).toNat = n := by
  simp [Nat.mod_eq_of_lt h]

end Sys2Proof
end

