-- ==== Sys2Proof/Laws/Memory.lean ====
section
/-! SUPPORT. The laws of the store of bytes: read after write, and that a write keeps the canonical form. -/

namespace Sys2Proof.Machine

@[simp] theorem Memory.read_nil (x : Nat) : Memory.read [] x = none := rfl

/-- A read after a write gives the byte written at its address, and what it gave before everywhere else. -/
@[simp] theorem Memory.read_write (m : Memory) (x y : Nat) (v : Byte) :
    Memory.read (Memory.write m x v) y = if y = x then some v else Memory.read m y := by
  induction m with
  | nil => simp [Memory.write, Memory.read]
  | cons c rest ih =>
    obtain ⟨a, w⟩ := c
    simp only [Memory.write]
    split
    · simp [Memory.read]
    · split
      · rename_i hx
        subst hx
        simp only [Memory.read]
        split <;> simp_all
      · rename_i hx
        simp only [Memory.read, ih]
        by_cases hy : y = a
        · have : y ≠ x := fun h => hx (h.symm.trans hy)
          simp [hy, Ne.symm hx]
        · simp [hy]

/-- A write adds no cell but its own. -/
theorem Memory.mem_write {m : Memory} {x : Nat} {v : Byte} {c : Host.Cell} (h : c ∈ Memory.write m x v) :
    c = (x, v) ∨ c ∈ m := by
  induction m with
  | nil => simpa [Memory.write] using h
  | cons d rest ih =>
    simp only [Memory.write] at h
    split at h
    · simpa using h
    · split at h
      · rcases List.mem_cons.1 h with h | h
        · exact .inl h
        · exact .inr (List.mem_cons_of_mem _ h)
      · rcases List.mem_cons.1 h with h | h
        · exact .inr (h ▸ List.mem_cons_self)
        · exact (ih h).imp_right (List.mem_cons_of_mem _)

/-- The empty store is in canonical form. -/
theorem Memory.wf_nil : Memory.wf [] := List.Pairwise.nil

/-- A write keeps the canonical form. -/
theorem Memory.wf_write {m : Memory} (h : Memory.wf m) (x : Nat) (v : Byte) : Memory.wf (Memory.write m x v) := by
  induction m with
  | nil => simp [Memory.write, Memory.wf]
  | cons d rest ih =>
    obtain ⟨hd, hr⟩ := List.pairwise_cons.1 h
    simp only [Memory.write]
    split
    · rename_i hx
      refine List.pairwise_cons.2 ⟨fun c hc => ?_, h⟩
      rcases List.mem_cons.1 hc with rfl | hc
      · exact hx
      · exact hx.trans (hd c hc)
    · split
      · rename_i hx
        exact List.pairwise_cons.2 ⟨fun c hc => hx ▸ hd c hc, hr⟩
      · rename_i h1 h2
        refine List.pairwise_cons.2 ⟨fun c hc => ?_, ih hr⟩
        rcases Memory.mem_write hc with rfl | hc
        · simp only; omega
        · exact hd c hc

/-- A written address is listed. -/
theorem Memory.mem_of_read {m : Memory} {x : Nat} {v : Byte} (h : Memory.read m x = some v) : (x, v) ∈ m := by
  induction m with
  | nil => simp at h
  | cons d rest ih =>
    obtain ⟨a, w⟩ := d
    simp only [Memory.read] at h
    split at h
    · simp_all
    · exact List.mem_cons_of_mem _ (ih h)

/-- In canonical form a store is what it reads as: stores that read the same everywhere are equal. -/
theorem Memory.eq_of_read {m n : Memory} (hm : Memory.wf m) (hn : Memory.wf n)
    (h : ∀ x, Memory.read m x = Memory.read n x) : m = n := by
  induction m generalizing n with
  | nil =>
    cases n with
    | nil => rfl
    | cons d rest => simpa [Memory.read] using h d.1
  | cons c rest ih =>
    obtain ⟨a, v⟩ := c
    cases n with
    | nil => simpa [Memory.read] using h a
    | cons d rest' =>
      obtain ⟨b, w⟩ := d
      obtain ⟨hma, hmr⟩ := List.pairwise_cons.1 hm
      obtain ⟨hnb, hnr⟩ := List.pairwise_cons.1 hn
      have hab : a = b := by
        by_contra hne
        rcases Nat.lt_or_gt_of_ne hne with hlt | hlt
        · have h1 := h a
          simp only [Memory.read, if_true, if_neg hne] at h1
          have := hnb _ (Memory.mem_of_read h1.symm)
          simp only at this; omega
        · have h1 := h b
          simp only [Memory.read, if_true, if_neg (Ne.symm hne)] at h1
          have := hma _ (Memory.mem_of_read h1)
          simp only at this; omega
      subst hab
      have hv : v = w := by simpa [Memory.read] using h a
      subst hv
      rw [ih hmr hnr fun x => ?_]
      by_cases hx : x = a
      · subst hx
        have h1 : Memory.read rest x = none := by
          cases hr : Memory.read rest x with
          | none => rfl
          | some u => exact absurd (hma _ (Memory.mem_of_read hr)) (Nat.lt_irrefl _)
        have h2 : Memory.read rest' x = none := by
          cases hr : Memory.read rest' x with
          | none => rfl
          | some u => exact absurd (hnb _ (Memory.mem_of_read hr)) (Nat.lt_irrefl _)
        rw [h1, h2]
      · simpa [Memory.read, hx] using h x

end Sys2Proof.Machine
end

