-- ==== Sys2Proof/Laws/PerInstr.lean ====
section
/-! SUPPORT. Statements made per instruction, as syntax: the header an instruction encodes to has its row's opcode, and
declares the length of its data stream (30_encoding.md R60 to R62). -/

namespace Sys2Proof.Laws

/-- The operation an instruction is an instance of. -/
def opOf : Instr → Op
  | .rbPush _ => .rbPush
  | .rbPop => .rbPop
  | .rbReadExact _ => .rbReadExact
  | .rbSize => .rbSize
  | .rbRemaining => .rbRemaining
  | .rbDrops => .rbDrops
  | .fcEncode _ _ => .fcEncode
  | .fcDecode _ => .fcDecode
  | .bcChunk _ _ => .bcChunk
  | .bcUnchunk _ => .bcUnchunk

namespace DeclaresItsData

/-- A well-formed instruction's request carries as much data as its header declares (30_encoding.md R61). -/
def Statement (i : Instr) : Prop :=
  i.wellFormed = true → (encode i).data.length = declaredLength (opOf i) (encode i).header

theorem rbPush (v : Byte) : Statement (.rbPush v) := fun _ => rfl

theorem rbPop : Statement .rbPop := fun _ => rfl

theorem rbReadExact (n : Half) : Statement (.rbReadExact n) := fun _ => rfl

theorem rbSize : Statement .rbSize := fun _ => rfl

theorem rbRemaining : Statement .rbRemaining := fun _ => rfl

theorem rbDrops : Statement .rbDrops := fun _ => rfl

theorem fcEncode (cmd : Byte) (p : List Byte) : Statement (.fcEncode cmd p) := fun h => by
  have hp : p.length < 65536 := by simpa [Instr.wellFormed] using h
  simp [encode, opOf, declaredLength, Nat.mod_eq_of_lt hp]

theorem fcDecode (f : List Byte) : Statement (.fcDecode f) := fun h => by
  have hf : f.length < 65536 := by simpa [Instr.wellFormed] using h
  simp [encode, opOf, declaredLength, Nat.mod_eq_of_lt hf]

theorem bcChunk (rows bm : List Byte) : Statement (.bcChunk rows bm) := fun h => by
  obtain ⟨hr, hb⟩ := wellFormed_bcChunk.1 h
  simp [encode, opOf, declaredLength, Nat.mod_eq_of_lt hr, hb, Config.bitmapBytes]

theorem bcUnchunk (p : List Byte) : Statement (.bcUnchunk p) := fun h => by
  have hp : p.length < 65536 := by simpa [Instr.wellFormed] using h
  simp [encode, opOf, declaredLength, Nat.mod_eq_of_lt hp]

end DeclaresItsData

end Sys2Proof.Laws
end

