-- ==== Sys2Proof/Laws/State.lean ====
section
/-! SUPPORT. One lemma per field per update of State, so that no later proof unfolds a record update, and the lemmas of
the ports. A response is put in simp's normal form `State.answer`. -/

namespace Sys2Proof.Machine

/-! ## Cursors and counter -/

@[simp] theorem State.advanceWr_rbN (s : State) : (s.advanceWr).rbN = s.rbN := rfl
@[simp] theorem State.advanceWr_rb (s : State) : (s.advanceWr).rb = s.rb := rfl
@[simp] theorem State.advanceWr_rbWr (s : State) : (s.advanceWr).rbWr = (s.rbWr + 1) % s.rbN := rfl
@[simp] theorem State.advanceWr_rbRd (s : State) : (s.advanceWr).rbRd = s.rbRd := rfl
@[simp] theorem State.advanceWr_rbDrops (s : State) : (s.advanceWr).rbDrops = s.rbDrops := rfl
@[simp] theorem State.advanceWr_sched (s : State) : (s.advanceWr).sched = s.sched := rfl
@[simp] theorem State.advanceWr_serving (s : State) : (s.advanceWr).serving = s.serving := rfl
@[simp] theorem State.advanceWr_producer (s : State) : (s.advanceWr).producer = s.producer := rfl
@[simp] theorem State.advanceWr_consumer (s : State) : (s.advanceWr).consumer = s.consumer := rfl

@[simp] theorem State.advanceRd_rbN (s : State) (n : Nat) : (s.advanceRd n).rbN = s.rbN := rfl
@[simp] theorem State.advanceRd_rb (s : State) (n : Nat) : (s.advanceRd n).rb = s.rb := rfl
@[simp] theorem State.advanceRd_rbWr (s : State) (n : Nat) : (s.advanceRd n).rbWr = s.rbWr := rfl
@[simp] theorem State.advanceRd_rbRd (s : State) (n : Nat) : (s.advanceRd n).rbRd = (s.rbRd + n) % s.rbN := rfl
@[simp] theorem State.advanceRd_rbDrops (s : State) (n : Nat) : (s.advanceRd n).rbDrops = s.rbDrops := rfl
@[simp] theorem State.advanceRd_sched (s : State) (n : Nat) : (s.advanceRd n).sched = s.sched := rfl
@[simp] theorem State.advanceRd_serving (s : State) (n : Nat) : (s.advanceRd n).serving = s.serving := rfl
@[simp] theorem State.advanceRd_producer (s : State) (n : Nat) : (s.advanceRd n).producer = s.producer := rfl
@[simp] theorem State.advanceRd_consumer (s : State) (n : Nat) : (s.advanceRd n).consumer = s.consumer := rfl

@[simp] theorem State.countDrop_rbN (s : State) : (s.countDrop).rbN = s.rbN := rfl
@[simp] theorem State.countDrop_rb (s : State) : (s.countDrop).rb = s.rb := rfl
@[simp] theorem State.countDrop_rbWr (s : State) : (s.countDrop).rbWr = s.rbWr := rfl
@[simp] theorem State.countDrop_rbRd (s : State) : (s.countDrop).rbRd = s.rbRd := rfl
@[simp] theorem State.countDrop_rbDrops (s : State) : (s.countDrop).rbDrops = BitVec.ofNat 16 (min (s.rbDrops.toNat + 1) 65535) := rfl
@[simp] theorem State.countDrop_sched (s : State) : (s.countDrop).sched = s.sched := rfl
@[simp] theorem State.countDrop_serving (s : State) : (s.countDrop).serving = s.serving := rfl
@[simp] theorem State.countDrop_producer (s : State) : (s.countDrop).producer = s.producer := rfl
@[simp] theorem State.countDrop_consumer (s : State) : (s.countDrop).consumer = s.consumer := rfl

@[simp] theorem State.discardOldest_rbN (s : State) : (s.discardOldest).rbN = s.rbN := rfl
@[simp] theorem State.discardOldest_rb (s : State) : (s.discardOldest).rb = s.rb := rfl
@[simp] theorem State.discardOldest_rbWr (s : State) : (s.discardOldest).rbWr = s.rbWr := rfl
@[simp] theorem State.discardOldest_rbRd (s : State) : (s.discardOldest).rbRd = (s.rbRd + 1) % s.rbN := rfl
@[simp] theorem State.discardOldest_rbDrops (s : State) : (s.discardOldest).rbDrops = BitVec.ofNat 16 (min (s.rbDrops.toNat + 1) 65535) := rfl
@[simp] theorem State.discardOldest_sched (s : State) : (s.discardOldest).sched = s.sched := rfl
@[simp] theorem State.discardOldest_serving (s : State) : (s.discardOldest).serving = s.serving := rfl
@[simp] theorem State.discardOldest_producer (s : State) : (s.discardOldest).producer = s.producer := rfl
@[simp] theorem State.discardOldest_consumer (s : State) : (s.discardOldest).consumer = s.consumer := rfl

/-! ## The reset event and the passing of a turn -/

@[simp] theorem State.resetBlock_rbN (s : State) : (s.resetBlock).rbN = s.rbN := rfl
@[simp] theorem State.resetBlock_rb (s : State) : (s.resetBlock).rb = [] := rfl
@[simp] theorem State.resetBlock_rbWr (s : State) : (s.resetBlock).rbWr = 0 := rfl
@[simp] theorem State.resetBlock_rbRd (s : State) : (s.resetBlock).rbRd = 0 := rfl
@[simp] theorem State.resetBlock_rbDrops (s : State) : (s.resetBlock).rbDrops = 0#16 := rfl
@[simp] theorem State.resetBlock_sched (s : State) : (s.resetBlock).sched = s.sched := rfl
@[simp] theorem State.resetBlock_serving (s : State) : (s.resetBlock).serving = s.serving := rfl
@[simp] theorem State.resetBlock_producer (s : State) : (s.resetBlock).producer = s.producer := rfl
@[simp] theorem State.resetBlock_consumer (s : State) : (s.resetBlock).consumer = s.consumer := rfl

@[simp] theorem State.passTurn_rbN (s : State) : (s.passTurn).rbN = s.rbN := rfl
@[simp] theorem State.passTurn_rb (s : State) : (s.passTurn).rb = s.rb := rfl
@[simp] theorem State.passTurn_rbWr (s : State) : (s.passTurn).rbWr = s.rbWr := rfl
@[simp] theorem State.passTurn_rbRd (s : State) : (s.passTurn).rbRd = s.rbRd := rfl
@[simp] theorem State.passTurn_rbDrops (s : State) : (s.passTurn).rbDrops = s.rbDrops := rfl
@[simp] theorem State.passTurn_sched (s : State) : (s.passTurn).sched = s.sched.tail := rfl
@[simp] theorem State.passTurn_serving (s : State) : (s.passTurn).serving = s.serving := rfl
@[simp] theorem State.passTurn_producer (s : State) : (s.passTurn).producer = s.producer := rfl
@[simp] theorem State.passTurn_consumer (s : State) : (s.passTurn).consumer = s.consumer := rfl

/-! ## Ports -/

@[simp] theorem State.setPort_rbN (s : State) (a : Agent) (p : Port) : (s.setPort a p).rbN = s.rbN := by cases a <;> rfl
@[simp] theorem State.setPort_rb (s : State) (a : Agent) (p : Port) : (s.setPort a p).rb = s.rb := by cases a <;> rfl
@[simp] theorem State.setPort_rbWr (s : State) (a : Agent) (p : Port) : (s.setPort a p).rbWr = s.rbWr := by cases a <;> rfl
@[simp] theorem State.setPort_rbRd (s : State) (a : Agent) (p : Port) : (s.setPort a p).rbRd = s.rbRd := by cases a <;> rfl
@[simp] theorem State.setPort_rbDrops (s : State) (a : Agent) (p : Port) : (s.setPort a p).rbDrops = s.rbDrops := by cases a <;> rfl
@[simp] theorem State.setPort_sched (s : State) (a : Agent) (p : Port) : (s.setPort a p).sched = s.sched := by cases a <;> rfl
@[simp] theorem State.setPort_serving (s : State) (a : Agent) (p : Port) : (s.setPort a p).serving = s.serving := by cases a <;> rfl

@[simp] theorem State.setPort_port_self (s : State) (a : Agent) (p : Port) : (s.setPort a p).port a = p := by cases a <;> rfl

@[simp] theorem State.setPort_port_other (s : State) {a b : Agent} (p : Port) (h : b ≠ a) :
    (s.setPort a p).port b = s.port b := by
  cases a <;> cases b <;> first | rfl | exact absurd rfl h

theorem State.setPort_port (s : State) (a b : Agent) (p : Port) :
    (s.setPort a p).port b = if b = a then p else s.port b := by
  by_cases h : b = a <;> simp [h]

/-- A port does not depend on the block's state, the events to come or who is served. -/
theorem State.port_congr {s t : State} (hp : t.producer = s.producer) (hc : t.consumer = s.consumer) (a : Agent) :
    t.port a = s.port a := by
  cases a <;> assumption

@[simp] theorem State.advanceWr_port (s : State) (a : Agent) : (s.advanceWr).port a = s.port a := by cases a <;> rfl
@[simp] theorem State.advanceRd_port (s : State) (n : Nat) (a : Agent) : (s.advanceRd n).port a = s.port a := by cases a <;> rfl
@[simp] theorem State.discardOldest_port (s : State) (a : Agent) : (s.discardOldest).port a = s.port a := by cases a <;> rfl
@[simp] theorem State.resetBlock_port (s : State) (a : Agent) : (s.resetBlock).port a = s.port a := by cases a <;> rfl
@[simp] theorem State.passTurn_port (s : State) (a : Agent) : (s.passTurn).port a = s.port a := by cases a <;> rfl

/-! ## Responses -/

@[simp] theorem State.respond_eq_answer (s : State) (st : Status) (tag : CommandTag) (aux8 : Byte) (len16 : Half)
    (data : List Byte) : s.respond st tag aux8 len16 data = s.answer ⟨st, tag, aux8, len16, data⟩ := rfl

@[simp] theorem State.raise_eq_answer (s : State) (e : Status) :
    s.raise e = s.answer ⟨e, .invalid, 0#8, 0#16, []⟩ := rfl

@[simp] theorem State.answer_rbN (s : State) (r : Response) : (s.answer r).rbN = s.rbN := by simp [State.answer]
@[simp] theorem State.answer_rb (s : State) (r : Response) : (s.answer r).rb = s.rb := by simp [State.answer]
@[simp] theorem State.answer_rbWr (s : State) (r : Response) : (s.answer r).rbWr = s.rbWr := by simp [State.answer]
@[simp] theorem State.answer_rbRd (s : State) (r : Response) : (s.answer r).rbRd = s.rbRd := by simp [State.answer]
@[simp] theorem State.answer_rbDrops (s : State) (r : Response) : (s.answer r).rbDrops = s.rbDrops := by simp [State.answer]
@[simp] theorem State.answer_sched (s : State) (r : Response) : (s.answer r).sched = s.sched := by simp [State.answer]
@[simp] theorem State.answer_serving (s : State) (r : Response) : (s.answer r).serving = s.serving := by simp [State.answer]

@[simp] theorem State.answer_port_serving (s : State) (r : Response) :
    (s.answer r).port s.serving = { s.port s.serving with resp := some r } := by simp [State.answer]

@[simp] theorem State.answer_port_other (s : State) (r : Response) {a : Agent} (h : a ≠ s.serving) :
    (s.answer r).port a = s.port a := by simp [State.answer, h]

@[simp] theorem State.answer_pending (s : State) (r : Response) (a : Agent) :
    ((s.answer r).port a).pending = (s.port a).pending := by
  by_cases h : a = s.serving <;> simp [h]

@[simp] theorem State.answer_received (s : State) (r : Response) (a : Agent) :
    ((s.answer r).port a).received = (s.port a).received := by
  by_cases h : a = s.serving <;> simp [h]

@[simp] theorem State.answer_response (s : State) (r : Response) : (s.answer r).response = some r := by
  simp [State.response]

/-- What answering does to the interface: it sets the response of the agent served. -/
theorem State.answer_sameButResponse (s : State) (r : Response) : s.sameButResponse (s.answer r) :=
  ⟨by simp, by simp, fun a h => by simp [h], by simp, by simp⟩

/-! ## Taking a response -/

@[simp] theorem State.takeResponse_rbN (s : State) (a : Agent) : (s.takeResponse a).rbN = s.rbN := by
  unfold State.takeResponse; split <;> simp
@[simp] theorem State.takeResponse_rb (s : State) (a : Agent) : (s.takeResponse a).rb = s.rb := by
  unfold State.takeResponse; split <;> simp
@[simp] theorem State.takeResponse_rbWr (s : State) (a : Agent) : (s.takeResponse a).rbWr = s.rbWr := by
  unfold State.takeResponse; split <;> simp
@[simp] theorem State.takeResponse_rbRd (s : State) (a : Agent) : (s.takeResponse a).rbRd = s.rbRd := by
  unfold State.takeResponse; split <;> simp
@[simp] theorem State.takeResponse_rbDrops (s : State) (a : Agent) : (s.takeResponse a).rbDrops = s.rbDrops := by
  unfold State.takeResponse; split <;> simp
@[simp] theorem State.takeResponse_sched (s : State) (a : Agent) : (s.takeResponse a).sched = s.sched := by
  unfold State.takeResponse; split <;> simp
@[simp] theorem State.takeResponse_serving (s : State) (a : Agent) : (s.takeResponse a).serving = s.serving := by
  unfold State.takeResponse; split <;> simp

/-! ## Issued requests -/

@[simp] theorem State.issueAll_rbN (s : State) (a : Agent) (rs : List Request) : (s.issueAll a rs).rbN = s.rbN := by
  simp [State.issueAll]
@[simp] theorem State.issueAll_rb (s : State) (a : Agent) (rs : List Request) : (s.issueAll a rs).rb = s.rb := by
  simp [State.issueAll]
@[simp] theorem State.issueAll_rbWr (s : State) (a : Agent) (rs : List Request) : (s.issueAll a rs).rbWr = s.rbWr := by
  simp [State.issueAll]
@[simp] theorem State.issueAll_rbRd (s : State) (a : Agent) (rs : List Request) : (s.issueAll a rs).rbRd = s.rbRd := by
  simp [State.issueAll]
@[simp] theorem State.issueAll_rbDrops (s : State) (a : Agent) (rs : List Request) : (s.issueAll a rs).rbDrops = s.rbDrops := by
  simp [State.issueAll]
@[simp] theorem State.issueAll_sched (s : State) (a : Agent) (rs : List Request) : (s.issueAll a rs).sched = s.sched := by
  simp [State.issueAll]
@[simp] theorem State.issueAll_serving (s : State) (a : Agent) (rs : List Request) : (s.issueAll a rs).serving = s.serving := by
  simp [State.issueAll]

@[simp] theorem State.issueAll_port_self (s : State) (a : Agent) (rs : List Request) :
    (s.issueAll a rs).port a = { s.port a with pending := (s.port a).pending ++ rs } := by simp [State.issueAll]

@[simp] theorem State.issueAll_port_other (s : State) {a b : Agent} (rs : List Request) (h : b ≠ a) :
    (s.issueAll a rs).port b = s.port b := by simp [State.issueAll, h]

@[simp] theorem State.issueAll_nil (s : State) (a : Agent) : s.issueAll a [] = s := by
  cases a <;> simp [State.issueAll, State.setPort, State.port]

@[simp] theorem State.issueProgram_nil (s : State) : s.issueProgram [] = s := rfl

@[simp] theorem State.issueProgram_cons (s : State) (l : HostLine) (p : List HostLine) :
    s.issueProgram (l :: p) = (s.issueAll l.agent l.requests).issueProgram p := rfl

@[simp] theorem HostLine.requests_instr (a : Agent) (i : Instr) :
    HostLine.requests ⟨a, .instr i⟩ = [encode i] := rfl

@[simp] theorem HostLine.requests_rbPushs (a : Agent) (bs : List Byte) :
    HostLine.requests ⟨a, .rbPushs bs⟩ = bs.map (fun b => ⟨headerOf 0x01#8 b 0#16, []⟩) := by
  simp [HostLine.requests, HostOp.expand, rbPushs, encode, Function.comp_def]

theorem State.issueAll_append (s : State) (a : Agent) (rs qs : List Request) :
    (s.issueAll a rs).issueAll a qs = s.issueAll a (rs ++ qs) := by
  cases a <;> simp [State.issueAll, State.setPort, State.port]

/-! ## An accepted request -/

@[simp] theorem State.accepted_rbN (s : State) (a : Agent) (q : List Request) (rest : List Turn) :
    (s.accepted a q rest).rbN = s.rbN := by simp [State.accepted]
@[simp] theorem State.accepted_rb (s : State) (a : Agent) (q : List Request) (rest : List Turn) :
    (s.accepted a q rest).rb = s.rb := by simp [State.accepted]
@[simp] theorem State.accepted_rbWr (s : State) (a : Agent) (q : List Request) (rest : List Turn) :
    (s.accepted a q rest).rbWr = s.rbWr := by simp [State.accepted]
@[simp] theorem State.accepted_rbRd (s : State) (a : Agent) (q : List Request) (rest : List Turn) :
    (s.accepted a q rest).rbRd = s.rbRd := by simp [State.accepted]
@[simp] theorem State.accepted_rbDrops (s : State) (a : Agent) (q : List Request) (rest : List Turn) :
    (s.accepted a q rest).rbDrops = s.rbDrops := by simp [State.accepted]
@[simp] theorem State.accepted_sched (s : State) (a : Agent) (q : List Request) (rest : List Turn) :
    (s.accepted a q rest).sched = rest := by simp [State.accepted]
@[simp] theorem State.accepted_serving (s : State) (a : Agent) (q : List Request) (rest : List Turn) :
    (s.accepted a q rest).serving = a := by simp [State.accepted]

@[simp] theorem State.accepted_port_self (s : State) (a : Agent) (q : List Request) (rest : List Turn) :
    (s.accepted a q rest).port a = { s.port a with pending := q } := by cases a <;> rfl

@[simp] theorem State.accepted_port_other (s : State) {a b : Agent} (q : List Request) (rest : List Turn) (h : b ≠ a) :
    (s.accepted a q rest).port b = s.port b := by
  cases a <;> cases b <;> first | rfl | exact absurd rfl h

end Sys2Proof.Machine
end

