-- ==== Sys2Proof/Laws/Ring.lean ====
section
/-! SUPPORT. The ring buffer's derived quantities, what a slot access can answer, and what each Ring Buffer meaning
answers where its cursors name slots that exist. -/

namespace Sys2Proof.Machine

/-! ## Derived quantities depend on the block's state alone -/

@[simp] theorem State.answer_size (s : State) (r : Response) : (s.answer r).size = s.size := by simp [State.size]

@[simp] theorem State.answer_remaining (s : State) (r : Response) : (s.answer r).remaining = s.remaining := by
  simp [State.remaining]

@[simp] theorem State.answer_slot (s : State) (r : Response) (x : Nat) : (s.answer r).slot x = s.slot x := by
  simp [State.slot]

@[simp] theorem State.answer_contents (s : State) (r : Response) : (s.answer r).contents = s.contents := by
  simp [State.contents]

/-- The invariant is about the block's state alone. -/
theorem State.Inv_congr {s t : State} (hn : t.rbN = s.rbN) (hb : t.rb = s.rb) (hw : t.rbWr = s.rbWr)
    (hr : t.rbRd = s.rbRd) : t.Inv ↔ s.Inv := by
  simp only [State.Inv, State.size, State.slot, hn, hb, hw, hr]

theorem State.answer_Inv (s : State) (r : Response) : (s.answer r).Inv ↔ s.Inv :=
  State.Inv_congr (by simp) (by simp) (by simp) (by simp)

/-- The size is below RB_N (10_state.md R25). -/
theorem State.size_lt (s : State) (h : 0 < s.rbN) : s.size < s.rbN := by
  have h0 : (s.rbN : Int) ≠ 0 := by omega
  have h1 := Int.emod_nonneg ((s.rbWr : Int) - s.rbRd) h0
  have h2 := Int.emod_lt_of_pos ((s.rbWr : Int) - s.rbRd) (show (0 : Int) < s.rbN by omega)
  unfold State.size; omega

/-- The size of a buffer whose cursors are both below RB_N, without a remainder: the write cursor is ahead of the read
cursor, or behind it by a lap (10_state.md R24). -/
theorem State.size_cases (s : State) (hw : s.rbWr < s.rbN) (hr : s.rbRd < s.rbN) :
    (s.rbRd ≤ s.rbWr ∧ s.size = s.rbWr - s.rbRd) ∨ (s.rbWr < s.rbRd ∧ s.size = s.rbWr + s.rbN - s.rbRd) := by
  unfold State.size
  by_cases h : s.rbRd ≤ s.rbWr
  · refine .inl ⟨h, ?_⟩
    rw [Int.emod_eq_of_lt (by omega) (by omega)]; omega
  · refine .inr ⟨by omega, ?_⟩
    rw [← Int.add_emod_right, Int.emod_eq_of_lt (by omega) (by omega)]; omega

/-- One place on from a slot: the next slot, or slot 0 after the last. -/
theorem succ_mod_cases {x N : Nat} (h : x < N) :
    (x + 1 = N ∧ (x + 1) % N = 0) ∨ (x + 1 < N ∧ (x + 1) % N = x + 1) := by
  by_cases hx : x + 1 = N
  · exact .inl ⟨hx, by rw [hx, Nat.mod_self]⟩
  · exact .inr ⟨by omega, Nat.mod_eq_of_lt (by omega)⟩

/-- `n ≤ N` places on from a slot, over at most one lap. -/
theorem add_mod_cases {x n N : Nat} (h : x < N) (hn : n ≤ N) :
    (x + n < N ∧ (x + n) % N = x + n) ∨ (N ≤ x + n ∧ (x + n) % N = x + n - N) := by
  by_cases hx : x + n < N
  · exact .inl ⟨hx, Nat.mod_eq_of_lt hx⟩
  · exact .inr ⟨by omega, by rw [Nat.mod_eq_sub_mod (by omega), Nat.mod_eq_of_lt (by omega)]⟩

/-- The slot `size` places on from the read cursor is the write cursor's (10_state.md R24). -/
theorem State.slot_rd_add_size (s : State) (hw : s.rbWr < s.rbN) (hr : s.rbRd < s.rbN) :
    (s.rbRd + s.size) % s.rbN = s.rbWr := by
  rcases s.size_cases hw hr with ⟨h, e⟩ | ⟨h, e⟩ <;> rw [e]
  · rw [Nat.mod_eq_of_lt (by omega)]; omega
  · rw [show s.rbRd + (s.rbWr + s.rbN - s.rbRd) = s.rbWr + s.rbN by omega, Nat.add_mod_right, Nat.mod_eq_of_lt hw]

/-- Places less than RB_N apart from a common start are different slots. -/
theorem slot_injOn {N r i j : Nat} (hi : i < N) (hj : j < N) (h : (r + i) % N = (r + j) % N) : i = j := by
  have h' : i % N = j % N := Nat.ModEq.add_left_cancel' (n := N) r h
  rwa [Nat.mod_eq_of_lt hi, Nat.mod_eq_of_lt hj] at h'

/-! ## Slot accesses -/

/-- A slot read answers a byte exactly where the slot exists and was written. -/
theorem State.readSlot_ok {s : State} {x : Nat} {v : Byte} :
    s.readSlot x = .ok v ↔ x < s.rbN ∧ s.rb.read x = some v := by
  unfold State.readSlot
  split
  · cases s.rb.read x <;> simp_all
  · simp_all

/-- A slot write answers the state with that byte written, exactly where the slot exists. -/
theorem State.writeSlot_ok {s t : State} {x : Nat} {v : Byte} :
    s.writeSlot x v = .ok t ↔ x < s.rbN ∧ t = { s with rb := s.rb.write x v } := by
  unfold State.writeSlot
  split <;> simp_all [eq_comm]

/-- Reading `n` slots answers a sequence exactly where each of them answers its byte. -/
theorem State.readSlots_ok {s : State} {x n : Nat} {out : List Byte} :
    s.readSlots x n = .ok out ↔
      out.length = n ∧ ∀ j, (h : j < out.length) → s.readSlot (s.slot (x + j)) = .ok out[j] := by
  induction n generalizing x out with
  | zero => cases out <;> simp [State.readSlots]
  | succ n ih =>
    unfold State.readSlots
    cases hv : s.readSlot (s.slot x) with
    | error f =>
      constructor
      · intro h; cases h
      · rintro ⟨hl, h⟩
        have := h 0 (by omega)
        simp [hv] at this
    | ok v =>
      cases hvs : s.readSlots (x + 1) n with
      | error f =>
        constructor
        · intro h; cases h
        · rintro ⟨hl, h⟩
          cases out with
          | nil => cases hl
          | cons w ws =>
            have : s.readSlots (x + 1) n = .ok ws := ih.2 ⟨by simpa using hl, fun j hj => by
              have := h (j + 1) (by simpa using hj)
              simpa [Nat.add_assoc, Nat.add_comm 1] using this⟩
            simp [hvs] at this
      | ok vs =>
        have hvs' := ih.1 hvs
        constructor
        · intro h
          cases h
          refine ⟨by simp [hvs'.1], fun j hj => ?_⟩
          cases j with
          | zero => simpa using hv
          | succ j =>
            have := hvs'.2 j (by simpa using hj)
            simpa [Nat.add_assoc, Nat.add_comm 1] using this
        · rintro ⟨hl, h⟩
          cases out with
          | nil => cases hl
          | cons w ws =>
            have h0 := h 0 (by simp)
            have : s.readSlots (x + 1) n = .ok ws := ih.2 ⟨by simpa using hl, fun j hj => by
              have := h (j + 1) (by simpa using hj)
              simpa [Nat.add_assoc, Nat.add_comm 1] using this⟩
            simp_all

/-! ## The meanings -/

/-- RB_PUSH where the write cursor names a slot (41_ring_buffer.md R111). -/
theorem execRbPush_eq {s : State} (v : Byte) (h : s.rbWr < s.rbN) :
    execRbPush v s =
      .next (((if s.full then (State.advanceWr { s with rb := s.rb.write s.rbWr v }).discardOldest
          else State.advanceWr { s with rb := s.rb.write s.rbWr v })).answer
        ⟨.ok, .invalid, droppedBit (decide s.full), 0#16, []⟩) := by
  unfold execRbPush
  rw [State.writeSlot_ok.2 ⟨h, rfl⟩]
  rfl

/-- RB_POP where the oldest slot reads as `v` (41_ring_buffer.md R112). -/
theorem execRbPop_eq {s : State} {v : Byte} (hne : ¬ s.empty) (h : s.readSlot s.rbRd = .ok v) :
    execRbPop s = .next ((s.advanceRd 1).answer ⟨.ok, .invalid, v, 0#16, []⟩) := by
  unfold execRbPop
  rw [if_neg hne, h]
  rfl

/-- RB_POP on an empty buffer (41_ring_buffer.md R112). -/
theorem execRbPop_empty {s : State} (h : s.empty) :
    execRbPop s = .next (s.answer ⟨.noData, .invalid, 0#8, 0#16, []⟩) := by
  unfold execRbPop
  rw [if_pos h]
  rfl

/-- RB_READ_EXACT where the slots read as `out` (41_ring_buffer.md R113). -/
theorem execRbReadExact_eq {s : State} {n : Half} {out : List Byte} (hn : n.toNat ≤ s.size)
    (h : s.readSlots s.rbRd n.toNat = .ok out) :
    execRbReadExact n s = .next ((s.advanceRd n.toNat).answer ⟨.ok, .invalid, 0#8, n, out⟩) := by
  unfold execRbReadExact
  rw [if_neg (by omega), h]
  rfl

/-- RB_READ_EXACT on a short buffer (41_ring_buffer.md R113). -/
theorem execRbReadExact_short {s : State} {n : Half} (h : s.size < n.toNat) :
    execRbReadExact n s = .next (s.answer ⟨.noData, .invalid, 0#8, 0#16, []⟩) := by
  unfold execRbReadExact
  rw [if_pos h]
  rfl

/-- What RB_PUSH can answer: a next state only where the write cursor names a slot. -/
theorem execRbPush_next {s t : State} {v : Byte} (h : execRbPush v s = .next t) : s.rbWr < s.rbN := by
  unfold execRbPush State.writeSlot at h
  by_contra hc
  simp [hc] at h

/-- What RB_POP can answer: NONE on an empty buffer, else the oldest byte. -/
theorem execRbPop_next {s t : State} (h : execRbPop s = .next t) :
    (s.empty ∧ t = s.answer ⟨.noData, .invalid, 0#8, 0#16, []⟩) ∨
      ∃ v, ¬ s.empty ∧ s.readSlot s.rbRd = .ok v ∧
        t = (s.advanceRd 1).answer ⟨.ok, .invalid, v, 0#16, []⟩ := by
  by_cases he : s.empty
  · rw [execRbPop_empty he] at h
    cases h
    exact .inl ⟨he, rfl⟩
  · cases hv : s.readSlot s.rbRd with
    | error f =>
      unfold execRbPop at h
      rw [if_neg he, hv] at h
      cases h
    | ok v =>
      rw [execRbPop_eq he hv] at h
      cases h
      exact .inr ⟨v, he, rfl, rfl⟩

/-- What RB_READ_EXACT can answer: NONE on a short buffer, else the `n` oldest bytes. -/
theorem execRbReadExact_next {s t : State} {n : Half} (h : execRbReadExact n s = .next t) :
    (s.size < n.toNat ∧ t = s.answer ⟨.noData, .invalid, 0#8, 0#16, []⟩) ∨
      ∃ out, n.toNat ≤ s.size ∧ s.readSlots s.rbRd n.toNat = .ok out ∧
        t = (s.advanceRd n.toNat).answer ⟨.ok, .invalid, 0#8, n, out⟩ := by
  by_cases hs : s.size < n.toNat
  · rw [execRbReadExact_short hs] at h
    cases h
    exact .inl ⟨hs, rfl⟩
  · cases hv : s.readSlots s.rbRd n.toNat with
    | error f =>
      unfold execRbReadExact at h
      rw [if_neg hs, hv] at h
      cases h
    | ok out =>
      rw [execRbReadExact_eq (by omega) hv] at h
      cases h
      exact .inr ⟨out, by omega, rfl, rfl⟩

/-- The seven operations that write no block state answer, from every state, with that state answered. -/
theorem exec_stateless {i : Instr} (h : isStateless i = true) (s : State) :
    ∃ r, exec i s = .next (s.answer r) := by
  cases i with
  | rbPush v => cases h
  | rbPop => cases h
  | rbReadExact n => cases h
  | rbSize => exact ⟨_, rfl⟩
  | rbRemaining => exact ⟨_, rfl⟩
  | rbDrops => exact ⟨_, rfl⟩
  | fcEncode cmd p =>
    by_cases hp : Config.maxPayload < p.length
    · exact ⟨_, by simp [exec, execFcEncode, hp]; rfl⟩
    · exact ⟨_, by simp [exec, execFcEncode, hp]; rfl⟩
  | fcDecode f =>
    simp only [exec, execFcDecode]
    cases cobsDecode f with
    | error e => exact ⟨_, rfl⟩
    | ok D =>
      cases hp : packetOf D with
      | none => exact ⟨_, by simp [hp]; rfl⟩
      | some p => exact ⟨_, by simp [hp]; rfl⟩
  | bcChunk rows bm =>
    simp only [exec, execBcChunk]
    cases chunk rows bm with
    | error e => exact ⟨_, rfl⟩
    | ok ps => exact ⟨_, rfl⟩
  | bcUnchunk p =>
    simp only [exec, execBcUnchunk]
    cases unchunk p with
    | error e => exact ⟨_, rfl⟩
    | ok u => exact ⟨_, rfl⟩

end Sys2Proof.Machine
end

