-- ==== Sys2Proof/Tests/Slice0.lean ====
section
/-! SUPPORT. Tests. Expected values come from spec/95_test_vectors.md (cited as W, V, P with their row) or are written
out from the encodings of spec/30_encoding.md. First the smoke tests of WellFormed, then decoding, then the operations,
then one witness for the hypotheses of every obligation that has some. -/

namespace Sys2Proof.Tests

open Sys2Proof Sys2Proof.Machine

/-! ## Helpers -/

/-- The next state, if there is one. -/
def after : Host.Outcome State Fault Refusal → Option State
  | .next t => some t
  | .fault _ => none
  | .refused _ => none

/-- The response of an operation executed in `s`. -/
def answerOf (i : Instr) (s : State) : Option Response := (after (exec i s)).bind (·.response)

/-- The response header word of an operation executed in `s`. -/
def headerAfter (i : Instr) (s : State) : Option Word := (answerOf i s).map (·.header)

/-- The cursors and the counter after an operation executed in `s`. -/
def cursorsAfter (i : Instr) (s : State) : Option (Nat × Nat × Nat) :=
  (after (exec i s)).map (fun t => (t.rbWr, t.rbRd, t.rbDrops.toNat))

/-- What a decoded request is, or why it is none, as an Option. -/
def decoded (r : Request) : Option Instr :=
  match decode r with
  | .ok i => some i
  | .error _ => none

/-- Why a request is no instruction. -/
def rejected (r : Request) : Option Reject :=
  match decode r with
  | .ok _ => none
  | .error e => some e

/-- What a frame decodes to, if it does. -/
def unframed (F : List Byte) : Option (List Byte) :=
  match cobsDecode F with
  | .ok D => some D
  | .error _ => none

/-- Why a frame does not decode. -/
def frameError (F : List Byte) : Option Status :=
  match cobsDecode F with
  | .ok _ => none
  | .error e => some e

/-- `runK` of spec/95: byte `i` is `i + 1`. -/
def run (k : Nat) : List Byte := (List.range k).map (fun i => BitVec.ofNat 8 (i + 1))

/-- `[x]*K` of spec/95. -/
def rep (k : Nat) (x : Byte) : List Byte := List.replicate k x

theorem rep_length (k : Nat) (x : Byte) : (rep k x).length = k := List.length_replicate

theorem mem_rep {k : Nat} {x b : Byte} (h : b ∈ rep k x) : b = x := List.eq_of_mem_replicate h

theorem zeroFree_rep (k : Nat) : zeroFree (rep k 1#8) := fun _ h => by rw [mem_rep h]; decide

/-- A bitmap of zeros. -/
def blank : List Byte := List.replicate 12000 0#8

theorem blank_length : blank.length = 12000 := List.length_replicate

/-- V6 row 8: RB_N = 4, three bytes pushed, the buffer full. -/
def full4 : State := { State.resetWith 4 with rb := [(0, 0x0A#8), (1, 0x0B#8), (2, 0x0C#8)], rbWr := 3 }

/-- V6 row 11: the fourth push, one byte dropped. -/
def wrapped4 : State :=
  { State.resetWith 4 with
    rb := [(0, 0x0A#8), (1, 0x0B#8), (2, 0x0C#8), (3, 0x0D#8)], rbWr := 0, rbRd := 1, rbDrops := 1#16 }

/-- `s` with one request pending for `a` and the given events to come. -/
def waiting (s : State) (a : Agent) (r : Request) (turns : List Turn) : State :=
  { s.issue a r with sched := turns }

/-! ## WellFormed refuses each kind of ill-formed operand -/

theorem test_wf_refuses_long_payload (cmd : Byte) : (Instr.fcEncode cmd (rep 65536 1#8)).wellFormed = false := by
  have h : (rep 65536 1#8).length = 65536 := List.length_replicate
  rw [Instr.wellFormed, h]
  decide

theorem test_wf_refuses_long_frame : (Instr.fcDecode (rep 65536 1#8)).wellFormed = false := by
  have h : (rep 65536 1#8).length = 65536 := List.length_replicate
  rw [Instr.wellFormed, h]
  decide

theorem test_wf_refuses_long_row_list : (Instr.bcChunk (rep 65536 1#8) blank).wellFormed = false := by
  have h : (rep 65536 1#8).length = 65536 := List.length_replicate
  rw [Instr.wellFormed, h]
  rfl

theorem test_wf_refuses_short_bitmap : (Instr.bcChunk [5#8] (rep 11999 1#8)).wellFormed = false := by
  have h : (rep 11999 1#8).length = 11999 := List.length_replicate
  rw [Instr.wellFormed, h]
  decide

theorem test_wf_refuses_long_bulk_payload : (Instr.bcUnchunk (rep 65536 1#8)).wellFormed = false := by
  have h : (rep 65536 1#8).length = 65536 := List.length_replicate
  rw [Instr.wellFormed, h]
  decide

/-! ## Decoding: every constructor, by a word written out from R60 and R62 -/

-- len16 = 0000, imm8 = 0A, opcode = 01
theorem test_decode_rbPush : decoded ⟨0b0000000000000000_00001010_00000001#32, []⟩ = some (.rbPush 0x0A#8) := by decide

theorem test_decode_rbPop : decoded ⟨0b0000000000000000_00000000_00000010#32, []⟩ = some .rbPop := by decide

-- len16 = 0x1234: its low byte is bits 23..16
theorem test_decode_rbReadExact :
    decoded ⟨0b0001001000110100_00000000_00000011#32, []⟩ = some (.rbReadExact 0x1234#16) := by decide

theorem test_decode_rbSize : decoded ⟨0b0000000000000000_00000000_00000100#32, []⟩ = some .rbSize := by decide

theorem test_decode_rbRemaining : decoded ⟨0b0000000000000000_00000000_00000101#32, []⟩ = some .rbRemaining := by decide

theorem test_decode_rbDrops : decoded ⟨0b0000000000000000_00000000_00000110#32, []⟩ = some .rbDrops := by decide

theorem test_decode_fcEncode :
    decoded ⟨0b0000000000000011_00000001_00010000#32, [0x05#8, 0x00#8, 0x07#8]⟩ =
      some (.fcEncode 0x01#8 [0x05#8, 0x00#8, 0x07#8]) := by decide

theorem test_decode_fcDecode :
    decoded ⟨0b0000000000000011_00000000_00010001#32, [0x02#8, 0x37#8, 0x00#8]⟩ =
      some (.fcDecode [0x02#8, 0x37#8, 0x00#8]) := by decide

-- two rows, then 12000 bytes of bitmap
theorem test_decode_bcChunk {bm : List Byte} (h : bm.length = 12000) :
    decode ⟨0b0000000000000010_00000000_00100000#32, 0x05#8 :: 0x09#8 :: bm⟩ = .ok (.bcChunk [0x05#8, 0x09#8] bm) := by
  have hd : decodeHeader 0b0000000000000010_00000000_00100000#32 = some .bcChunk := by decide
  have hl : hasLength (0x05#8 :: 0x09#8 :: bm)
      (declaredLength .bcChunk 0b0000000000000010_00000000_00100000#32) = true := by
    rw [hasLength_iff, List.length_cons, List.length_cons, h]
    decide
  simp only [decode, hd, hl, if_true]
  rfl

theorem test_decode_bcUnchunk :
    decoded ⟨0b0000000000000001_00000000_00100001#32, [0x00#8]⟩ = some (.bcUnchunk [0x00#8]) := by decide

-- V10: an unassigned opcode, and fields that must be 0
theorem test_decode_illegal :
    [0x00000000#32, 0x00000007#32, 0x000000FF#32, 0x00010002#32, 0x00010101#32, 0x00000504#32, 0x00000111#32].all
      (fun h => rejected ⟨h, []⟩ == some .illegalOp) = true := by decide

-- R54: one byte missing, one byte too many
theorem test_decode_short_data : rejected ⟨0x00020010#32, [0x01#8]⟩ = some .dataLengthMismatch := by decide

theorem test_decode_long_data : rejected ⟨0x00000002#32, [0x01#8]⟩ = some .dataLengthMismatch := by decide

/-- What the bytes of one transfer decode to, if anything. -/
def decodedBytes (bs : List Byte) : Option Instr :=
  match decodeBytes bs with
  | .ok i => some i
  | .error _ => none

-- 20_memory.md R43: bits [7:0] first; three bytes are no header
theorem test_decode_bytes :
    decodedBytes [0x03#8, 0x00#8, 0x34#8, 0x12#8] = some (.rbReadExact 0x1234#16) ∧
      decodedBytes [0x03#8, 0x00#8, 0x34#8] = none := by decide

theorem test_table_word_push : decodeTableWord 32 0x00000A01 = some (.rbPush 0x0A#8) := by decide

theorem test_table_word_frame : decodeTableWord 56 0x003702_00030011 = some (.fcDecode [0x02#8, 0x37#8, 0x00#8]) := by
  decide

-- every row's match word runs as the first instruction after reset
theorem test_first_step_runs :
    [0x01, 0x02, 0x03, 0x04, 0x05, 0x06, 0x10, 0x11, 0x21].all
      (fun w => (after (step (State.reset.withFetchWord 32 w))).isSome) = true := by decide +kernel

theorem test_first_step_runs_chunk : (after (step (State.reset.withFetchWord 32 0x20))).isSome = true := by
  decide +kernel

/-! ## Ring Buffer, RB_N = 4 (V6, W4) -/

-- V6 row 6
theorem test_push_room :
    headerAfter (.rbPush 0x0A#8) (State.resetWith 4) = some 0x00000000#32 ∧
      cursorsAfter (.rbPush 0x0A#8) (State.resetWith 4) = some (1, 0, 0) := by decide

-- V6 row 11: the write cursor wraps, the oldest byte goes, DROPPED
theorem test_push_full :
    headerAfter (.rbPush 0x0D#8) full4 = some 0x00000100#32 ∧ after (exec (.rbPush 0x0D#8) full4) =
      some (wrapped4.respond .ok .invalid 0x01#8 0#16 []) := by decide

-- V6 row 1
theorem test_pop_empty :
    headerAfter .rbPop (State.resetWith 4) = some 0x00000001#32 ∧
      cursorsAfter .rbPop (State.resetWith 4) = some (0, 0, 0) := by decide

-- the oldest byte is at rb_rd
theorem test_pop_oldest :
    headerAfter .rbPop wrapped4 = some 0x00000B00#32 ∧ cursorsAfter .rbPop wrapped4 = some (0, 2, 1) := by decide

-- V6 row 14: the read wraps from slot 3 to slot 0
theorem test_read_exact_wraps :
    answerOf (.rbReadExact 3#16) wrapped4 = some ⟨.ok, .invalid, 0#8, 3#16, [0x0B#8, 0x0C#8, 0x0D#8]⟩ ∧
      cursorsAfter (.rbReadExact 3#16) wrapped4 = some (0, 0, 1) := by decide

-- V6 rows 13 and 2
theorem test_read_exact_short :
    headerAfter (.rbReadExact 4#16) wrapped4 = some 0x00000001#32 ∧
      headerAfter (.rbReadExact 0#16) (State.resetWith 4) = some 0x00000000#32 := by decide

-- V6 rows 4 and 9
theorem test_size :
    headerAfter .rbSize (State.resetWith 4) = some 0x00000000#32 ∧ headerAfter .rbSize full4 = some 0x00030000#32 := by
  decide

-- a write cursor below the read cursor
theorem test_size_wrapped : headerAfter .rbSize wrapped4 = some 0x00030000#32 := by decide

-- V6 rows 5 and 10
theorem test_remaining :
    headerAfter .rbRemaining (State.resetWith 4) = some 0x00030000#32 ∧
      headerAfter .rbRemaining full4 = some 0x00000000#32 := by decide

-- V6 row 12
theorem test_drops : headerAfter .rbDrops wrapped4 = some 0x00010000#32 := by decide

-- 10_state.md R23: the counter saturates
theorem test_drops_saturate :
    cursorsAfter (.rbPush 0x0D#8) { full4 with rbDrops := 0xFFFF#16 } = some (0, 1, 65535) := by decide

/-! ## Frame Codec (W1, V1, V3, V4, V5) -/

-- W1, then V1 row 17: a full run that ends the input gets no further block (R83)
theorem test_encode :
    answerOf (.fcEncode 0x23#8 [0x00#8, 0xD4#8, 0x81#8, 0x00#8, 0xFA#8]) (State.resetWith 4) =
      some ⟨.ok, .invalid, 0#8, 8#16, [0x02#8, 0x23#8, 0x03#8, 0xD4#8, 0x81#8, 0x02#8, 0xFA#8, 0x00#8]⟩ := by decide

theorem test_encode_full_run : cobsEncode (0x00#8 :: run 254) = [0x01#8, 0xFF#8] ++ run 254 ++ [0x00#8] := by
  decide +kernel

-- V4: the header of the longest frame, and one byte too many
theorem test_encode_lengths :
    headerAfter (.fcEncode 0x01#8 (run 254)) (State.resetWith 4) = some 0x01020000#32 ∧
      headerAfter (.fcEncode 0x01#8 (rep 255 0x55#8)) (State.resetWith 4) = some 0x00000004#32 := by decide +kernel

-- V5: a screen-buffer packet, an Ack, a reserved code
theorem test_decode_packets :
    answerOf (.fcDecode [0x03#8, 0x01#8, 0x05#8, 0x02#8, 0x07#8, 0x00#8]) (State.resetWith 4) =
        some ⟨.ok, .screenBuffer, 0x01#8, 3#16, [0x05#8, 0x00#8, 0x07#8]⟩ ∧
      headerAfter (.fcDecode [0x02#8, 0x02#8, 0x00#8]) (State.resetWith 4) = some 0x00000220#32 ∧
      headerAfter (.fcDecode [0x02#8, 0x37#8, 0x00#8]) (State.resetWith 4) = some 0x00003700#32 := by decide

-- V5: no frame, no delimiter, an empty unit
theorem test_decode_truncated :
    headerAfter (.fcDecode []) (State.resetWith 4) = some 0x00000002#32 ∧
      headerAfter (.fcDecode [0x02#8, 0x41#8]) (State.resetWith 4) = some 0x00000002#32 ∧
      headerAfter (.fcDecode [0x01#8, 0x00#8]) (State.resetWith 4) = some 0x00000002#32 := by decide

-- V3 rows 16, 20, 21: the capacity, and which error comes first
theorem test_decode_capacity :
    unframed ([0xFF#8] ++ rep 254 1#8 ++ [0x02#8, 0x01#8, 0x00#8]) = some (rep 255 1#8) ∧
      frameError ([0xFF#8] ++ rep 254 1#8 ++ [0x03#8, 0x01#8, 0x01#8, 0x09#8, 0x05#8, 0x00#8]) =
        some .payloadOverflow ∧
      frameError ([0xFF#8] ++ rep 254 1#8 ++ [0x05#8, 0x01#8, 0x00#8]) = some .truncated := by decide +kernel

/-! ## Bulk Transfer Chunker (W5, V8, V9, P3) -/

/-- `BMr` of spec/95: row `r` is `[r]*50`. -/
def bmr : List Byte := (List.range 240).flatMap (fun r => rep 50 (BitVec.ofNat 8 r))

-- P3 row 1: five rows, two packets
theorem test_chunk :
    answerOf (.bcChunk [0x05#8, 0x09#8, 0x00#8, 0xC8#8, 0x07#8] bmr) (State.resetWith 4) =
      some ⟨.ok, .invalid, 0#8, 2#16,
        [0x01#8, 0xFE#8] ++ ([0x05#8, 0x05#8, 0x09#8, 0x00#8, 0xC8#8, 0x07#8] ++ rep 50 0x05#8 ++ rep 50 0x09#8 ++
          rep 50 0x00#8 ++ rep 50 0xC8#8 ++ rep 48 0x07#8) ++ [0x01#8, 0x02#8] ++ [0x07#8, 0x07#8]⟩ := by
  decide +kernel

-- V8: too many rows, before an index that is no row; P4 row 8
theorem test_chunk_errors :
    headerAfter (.bcChunk (rep 241 0xF0#8) blank) (State.resetWith 4) = some 0x00000005#32 ∧
      headerAfter (.bcChunk [0x03#8, 0xF0#8] blank) (State.resetWith 4) = some 0x00000006#32 := by decide +kernel

-- P3 row 6, with one row; the empty update
theorem test_unchunk :
    answerOf (.bcUnchunk ([0x01#8, 0x07#8] ++ rep 50 0x07#8)) (State.resetWith 4) =
        some ⟨.ok, .invalid, 1#8, 51#16, [0x07#8] ++ rep 50 0x07#8⟩ ∧
      headerAfter (.bcUnchunk [0x00#8]) (State.resetWith 4) = some 0x00000000#32 := by decide +kernel

-- P4 row 7; R136: the row count comes before the length, the empty payload is BAD_LENGTH
theorem test_unchunk_errors :
    headerAfter (.bcUnchunk [0x01#8, 0x07#8]) (State.resetWith 4) = some 0x00000007#32 ∧
      headerAfter (.bcUnchunk [0xF1#8]) (State.resetWith 4) = some 0x00000005#32 ∧
      headerAfter (.bcUnchunk ([0x01#8, 0xF0#8] ++ rep 50 0x07#8)) (State.resetWith 4) = some 0x00000006#32 ∧
      headerAfter (.bcUnchunk []) (State.resetWith 4) = some 0x00000007#32 := by decide +kernel

/-! ## The step and host programs -/

-- P4 row 4: an illegal request with data
theorem test_step_illegal :
    (after (step (waiting full4 .producer ⟨0x00030111#32, [0x02#8, 0x41#8, 0x00#8]⟩ [.serve .producer]))).bind
      (fun t => t.producer.resp.map (·.header)) = some 0x00000008#32 := by decide

-- P5 rows 8 to 11: reset empties the buffer; 70_reset_and_hazards.md R171
theorem test_step_reset :
    (after (step (waiting full4 .consumer ⟨0x00000002#32, []⟩ [.reset, .serve .consumer]))).map
      (fun t => (t.rb, t.rbWr, t.rbRd, t.rbDrops, t.size, t.consumer.pending.length)) =
      some ([], 0, 0, 0#16, 0, 1) := by decide

/-- Two lines of a host program (R74), loaded and run with the responses taken. -/
def ran : Option State :=
  after (Host.Core.run Sys2Proof.core 4
    ((State.resetWith 4).load [⟨.producer, .instr (.rbPush 0x41#8)⟩, { op := .instr .rbPop }]))

-- P4 rows 1 and 9
theorem test_program :
    ran.map (fun t => (t.producer.received.map (·.header), t.consumer.received.map (·.header), t.rbWr, t.rbRd)) =
      some ([0x00000000#32], [0x00004100#32], 1, 1) := by decide +kernel

-- P5 row 1: the header words of RB_PUSHS [07, 00, 02, 02, 00], all the producer's
theorem test_rbPushs_line :
    let t := (State.resetWith 8).issueProgram [⟨.producer, .rbPushs [0x07#8, 0x00#8, 0x02#8, 0x02#8, 0x00#8]⟩]
    t.producer.pending.map (·.header) = [0x00000701#32, 0x00000001#32, 0x00000201#32, 0x00000201#32, 0x00000001#32] ∧
      t.consumer.pending = [] := by decide

-- R75: the consumer's RB_POP between the two pushes of one RB_PUSHS takes the first byte
theorem test_rbPushs_interleaves :
    let s := (State.resetWith 4).issueProgram [⟨.producer, .rbPushs [0x0A#8, 0x0B#8]⟩, { op := .instr .rbPop }]
    (after (Host.Core.run Sys2Proof.core 4
      { s with sched := [.serve .producer, .take .producer, .serve .consumer, .serve .producer] })).map
      (fun t => (t.consumer.resp.map (·.header), t.contents)) = some (some 0x00000A00#32, [0x0B#8]) := by
  decide +kernel

/-! ## Witnesses: states and operands that meet the hypotheses of the obligations -/

-- PushEffect (room, full), PopEffect (some, none), ReadExactEffect, SizeAndRemainingAnswers, QueueAbstraction,
-- StepNeverFaults, OperationsNeverStop, OverwriteLaw, CursorsFitTheirWidth, FullAndEmptyFromSize,
-- ContentsAreTheSlotsFromRead
theorem witness_inv_empty : (State.resetWith 4).Inv ∧ (State.resetWith 4).empty ∧ ¬ (State.resetWith 4).full := by
  decide

theorem witness_inv_full : full4.Inv ∧ full4.full ∧ ¬ full4.empty ∧ full4.size = 3 := by decide

theorem witness_inv_wrapped : wrapped4.Inv ∧ wrapped4.full ∧ wrapped4.rbWr < wrapped4.rbRd := by decide

-- the two ends of RB_N (00_scope.md R12): ResetMeetsInvariant, DropCounterCountsDroppedPushes, EqualViewsGiveEqualAnswers
theorem witness_slots :
    Config.legalSlots 2 ∧ Config.legalSlots 65536 ∧ ¬ Config.legalSlots 1 ∧ ¬ Config.legalSlots 65537 ∧
      (State.resetWith 2).Inv ∧ (State.resetWith 65536).Inv := by decide

-- CursorsFitTheirWidth: the highest cursor of the largest ring
theorem witness_top_cursor : ({ State.resetWith 65536 with rbWr := 65535, rbRd := 65535 } : State).Inv := by decide

theorem witness_memory_wf : Memory.wf State.reset.rb ∧ Memory.wf full4.rb ∧ State.reset.rb = [] := by
  refine ⟨List.Pairwise.nil, by decide, rfl⟩

-- PushEffect: each clause at its boundary, two bytes of three and three of three
theorem witness_push_clauses :
    (let s := { full4 with rbWr := 2 }; s.Inv ∧ (s.rbWr + 1) % s.rbN ≠ s.rbRd) ∧
      (full4.Inv ∧ (full4.rbWr + 1) % full4.rbN = full4.rbRd) := by decide

-- PopEffect: empty, and one byte
theorem witness_pop_clauses :
    (State.resetWith 4).rbWr = (State.resetWith 4).rbRd ∧
      (let s := { full4 with rbWr := 1 }; s.Inv ∧ s.size = 1 ∧ s.rbWr ≠ s.rbRd) := by decide

-- ReadExactEffect, ReadExactEqualsPops, ReadOfASeenSizeSucceeds, QueueAbstraction: 0, all and one more than all
theorem witness_read_exact_clauses :
    (0#16).toNat ≤ full4.size ∧ (3#16).toNat ≤ full4.size ∧ full4.size < (4#16).toNat := by decide

-- QueueAbstraction: contents that are a byte and a rest, at the limit and below
theorem witness_queue :
    full4.contents = 0x0A#8 :: [0x0B#8, 0x0C#8] ∧ full4.contents.length = full4.rbN - 1 ∧
      (State.resetWith 4).contents = [] ∧ wrapped4.contents = [0x0B#8, 0x0C#8, 0x0D#8] := by decide

-- OverwriteLaw: an empty buffer and RB_N bytes
theorem witness_overwrite :
    (State.resetWith 4).Inv ∧ (State.resetWith 4).size = 0 ∧
      [0x0A#8, 0x0B#8, 0x0C#8, 0x0D#8].length = (State.resetWith 4).rbN := by decide

-- EqualViewsGiveEqualAnswers: the same contents from another slot on
theorem witness_same_view :
    let t : State := { State.resetWith 4 with
      rb := [(0, 0x0B#8), (1, 0x0C#8), (3, 0x0A#8)], rbWr := 2, rbRd := 3 }
    full4.Inv ∧ t.Inv ∧ full4.sameView t ∧ t.rbRd ≠ full4.rbRd := by decide

/-- A state in which the consumer's RB_POP is served next. -/
def popNext : State := waiting full4 .consumer ⟨0x00000002#32, []⟩ [.serve .consumer]

-- EveryAcceptedRequestIsAnswered, StepRunsDecodedInstruction
theorem witness_about_to_serve :
    popNext.Inv ∧ popNext.aboutToServe .consumer ⟨0x00000002#32, []⟩ [] [] ∧
      decoded ⟨0x00000002#32, []⟩ = some .rbPop ∧ rejected ⟨0x00000002#32, []⟩ = none := by decide

-- EveryAcceptedRequestIsAnswered with an illegal header, IllegalRequestAnswersIllegalOp: one header for each field
theorem witness_illegal_request :
    (waiting full4 .producer ⟨0x00000107#32, []⟩ [.serve .producer]).aboutToServe .producer ⟨0x00000107#32, []⟩ [] [] ∧
      illegalHeader 0x00000107#32 ∧ illegalHeader 0x00030111#32 ∧ illegalHeader 0x00010002#32 ∧
      ¬ illegalHeader 0x00000002#32 := by decide

-- DataLengthMismatchIsRefused: one byte short, one byte long
theorem witness_mismatch :
    (waiting full4 .consumer ⟨0x00010011#32, []⟩ [.serve .consumer]).aboutToServe .consumer ⟨0x00010011#32, []⟩ [] [] ∧
      decodeHeader 0x00010011#32 = some .fcDecode ∧ ([] : List Byte).length ≠ declaredLength .fcDecode 0x00010011#32 ∧
      [1#8, 2#8].length ≠ declaredLength .fcDecode 0x00010011#32 := by decide

-- StepKeepsInvariant, RequestsAreServedInIssueOrder (a request is taken)
theorem witness_step_next :
    popNext.Inv ∧ (∃ t, step popNext = .next t ∧ popNext.consumer.pending = ⟨0x00000002#32, []⟩ :: t.consumer.pending) ∧
      popNext.nextTurn = some (.serve .consumer) := by
  refine ⟨by decide, ⟨_, rfl, rfl⟩, rfl⟩

-- RequestsAreServedInIssueOrder (the lines stay), ResetEventClearsTheBlock, PendingRequestRunsAfterReset
theorem witness_reset_event :
    let s := waiting full4 .consumer ⟨0x00000002#32, []⟩ [.reset, .serve .consumer]
    s.sched = .reset :: .serve .consumer :: [] ∧ (s.port .consumer).resp = none ∧
      (s.port .consumer).pending = ⟨0x00000002#32, []⟩ :: [] ∧ decoded ⟨0x00000002#32, []⟩ = some .rbPop ∧
      ∃ t, step s = .next t ∧ (t.port .consumer).pending = (s.port .consumer).pending := by
  refine ⟨rfl, rfl, rfl, by decide, _, rfl, rfl⟩

-- RunKeepsSizeBounds
theorem witness_run :
    popNext.Inv ∧ ∃ t : State, Host.Core.run Sys2Proof.core 3 popNext = .next t ∧ t.rbRd = 1 := by
  refine ⟨by decide, _, rfl, by decide⟩

-- TurnsWithoutAnOperation: nothing scheduled; a response waiting; nothing pending; a response taken
theorem witness_turns :
    (State.resetWith 4).sched = [] ∧
      (let s := { State.resetWith 4 with sched := [.serve .producer] }
       s.sched = .serve .producer :: [] ∧ (s.port .producer).pending = []) ∧
      (let s := { (popNext.setPort .consumer ⟨[⟨0x00000002#32, []⟩], some ⟨.ok, .invalid, 0#8, 0#16, []⟩, []⟩) with
                  sched := [.serve .consumer] }
       s.sched = .serve .consumer :: [] ∧ (s.port .consumer).resp.isSome = true) ∧
      (let s := { (popNext.setPort .consumer ⟨[], some ⟨.ok, .invalid, 0#8, 0#16, []⟩, []⟩) with
                  sched := [.take .consumer] }
       s.sched = .take .consumer :: [] ∧ (s.port .consumer).resp = some ⟨.ok, .invalid, 0#8, 0#16, []⟩) := by decide

-- PseudoPushesAreOneAgentsPushes: an interface idle, an agent's turn first and the other's next
theorem witness_rbPushs :
    let s := { State.resetWith 4 with sched := [.serve .producer, .serve .consumer] }
    s.Inv ∧ (s.port .producer).resp = none ∧ (s.port .producer).pending = [] ∧
      s.sched = .serve .producer :: [.serve .consumer] := by decide

-- DecodeOfEncode: every form, a data stream at the largest length and the empty one
theorem witness_wellFormed (cmd v : Byte) (n : Half) :
    (Instr.rbPush v).wellFormed = true ∧ Instr.rbPop.wellFormed = true ∧ (Instr.rbReadExact n).wellFormed = true ∧
      (Instr.fcEncode cmd (rep 65535 1#8)).wellFormed = true ∧ (Instr.fcDecode []).wellFormed = true ∧
      (Instr.bcChunk [] blank).wellFormed = true ∧ (Instr.bcChunk (rep 65535 1#8) blank).wellFormed = true ∧
      (Instr.bcUnchunk (rep 65535 1#8)).wellFormed = true := by
  have h : (rep 65535 1#8).length = 65535 := List.length_replicate
  have hb := blank_length
  simp [Instr.wellFormed, h, hb, Config.bitmapBytes]

-- EncodeOfDecode
theorem witness_decodes :
    decode ⟨0x00000002#32, []⟩ = .ok .rbPop ∧
      decode ⟨0x00010011#32, [0x00#8]⟩ = .ok (.fcDecode [0x00#8]) := ⟨rfl, rfl⟩

-- StatelessOperationsFrame
theorem witness_stateless :
    isStateless .rbSize = true ∧ isStateless (.fcEncode 1#8 []) = true ∧ isStateless (.bcUnchunk []) = true := by decide

-- ExecTouchesOnlyItsResponse, OnlyPushWritesSlots, StatusesPerOperation
theorem witness_exec_next :
    (∃ t, exec .rbPop full4 = .next t ∧ (∀ v, Instr.rbPop ≠ .rbPush v)) ∧ ∃ t, exec (.rbPush 1#8) full4 = .next t :=
  ⟨⟨_, rfl, fun _ => nofun⟩, _, rfl⟩

-- FailuresArePrecise
theorem witness_failure :
    ∃ t r, exec (.fcDecode []) full4 = .next t ∧ t.response = some r ∧ r.status ≠ .ok :=
  ⟨_, _, rfl, rfl, by decide⟩

-- ResponseStreamLengths: a frame, and a packet list
theorem witness_ok_responses :
    (∃ t r, (Instr.fcEncode 1#8 [5#8]).wellFormed = true ∧ exec (.fcEncode 1#8 [5#8]) full4 = .next t ∧
      t.response = some r ∧ r.status = .ok) ∧
    ∃ t r, (Instr.bcChunk [] blank).wellFormed = true ∧ exec (.bcChunk [] blank) full4 = .next t ∧
      t.response = some r ∧ r.status = .ok :=
  ⟨⟨_, _, rfl, rfl, rfl, rfl⟩, _, _, (witness_wellFormed 0#8 0#8 0#16).2.2.2.2.2.1, rfl, rfl, rfl⟩

-- EncodeProperties, ByteRoundTrip: lengths 1 and 255; FcEncodeResult and PacketRoundTrip: 254 and 255
theorem witness_lengths :
    1 ≤ [0x00#8].length ∧ 1 ≤ (run 255).length ∧ (run 255).length ≤ 255 ∧ (run 254).length ≤ 254 ∧
      254 < (run 255).length := by decide +kernel

-- EncodeFullRunAtEnd
theorem witness_full_run : (rep 254 1#8).length = 254 ∧ zeroFree (rep 254 1#8) := ⟨rep_length 254 1#8, zeroFree_rep 254⟩

-- NonCanonicalTail
theorem witness_tail :
    zeroFree (0xFF#8 :: rep 254 1#8) ∧ [0xFF#8] <:+ codeBytes (0xFF#8 :: rep 254 1#8) 0 ∧
      unframed (0xFF#8 :: rep 254 1#8 ++ [0x00#8]) = some (rep 254 1#8) := by
  refine ⟨?_, by decide +kernel, by decide +kernel⟩
  rintro b (_ | ⟨_, h⟩)
  · decide
  · exact zeroFree_rep 254 b h

-- AcceptedBodiesReencode
theorem witness_accepted_body :
    let B := [0x02#8, 0x11#8, 0x01#8]
    zeroFree B ∧ unframed (B ++ [0x00#8]) = some [0x11#8, 0x00#8] ∧ ¬ endsFullThenEmpty B := by decide

-- MalformedFrames: no delimiter; a pointer one past the body; bytes after the delimiter; a frame that decodes
theorem witness_malformed :
    zeroFree [0x02#8, 0x11#8] ∧ (zeroFree (0x03#8 :: [0x11#8]) ∧ [0x11#8].length + 1 < (0x03#8).toNat) ∧
      zeroFree [0x02#8, 0x41#8] ∧ unframed [0x02#8, 0x41#8, 0x00#8] = some [0x41#8] := by decide

-- FcDecodeResult: a packet, an empty unit, an error
theorem witness_fcDecode :
    unframed [0x02#8, 0x37#8, 0x00#8] = some (0x37#8 :: []) ∧ unframed [0x01#8, 0x00#8] = some [] ∧
      frameError [0x00#8] = some .truncated := by decide

-- BcChunkResult: 240 rows and 241, indices 239 and 240; ChunkCompleteness, ChunkUnchunkRoundTrip, BulkPayloadLayout:
-- the empty update and the largest
theorem witness_rows :
    ((rep 240 0xEF#8).length ≤ 240 ∧ ∀ r ∈ rep 240 0xEF#8, r.toNat < 240) ∧ 240 < (rep 241 0xEF#8).length ∧
      ([0xF0#8].length ≤ 240 ∧ ∃ r ∈ [0xF0#8], 240 ≤ r.toNat) :=
  ⟨⟨(rep_length _ _).le, fun _ h => by rw [mem_rep h]; decide⟩, by rw [rep_length]; decide, by decide⟩

theorem witness_update : legalUpdate [] blank ∧ legalUpdate (rep 240 0xEF#8) blank :=
  ⟨⟨Nat.zero_le _, nofun, blank_length⟩, witness_rows.1.1, witness_rows.1.2, blank_length⟩

-- BulkPayloadLayout, ChunkCompleteness: an entry of the row list, a packet of the list
theorem witness_row_entry :
    [0x05#8, 0x09#8][1]? = some 0x09#8 ∧ (packetPayloads (bulkPayload blank [0x05#8]) 1).length = packetCount 1 := by
  decide +kernel

-- BcUnchunkResult: each clause, at its boundary
theorem witness_unchunk :
    240 < (0xF1#8).toNat ∧ ((0xF0#8).toNat ≤ 240 ∧ ([] : List Byte).length ≠ 51 * (0xF0#8).toNat) ∧
      ((1#8).toNat ≤ 240 ∧ (0xF0#8 :: rep 50 7#8).length = 51 * (1#8).toNat ∧
        ∃ r ∈ (0xF0#8 :: rep 50 7#8).take (1#8).toNat, 240 ≤ r.toNat) ∧
      ((1#8).toNat ≤ 240 ∧ (0xEF#8 :: rep 50 7#8).length = 51 * (1#8).toNat ∧
        ∀ r ∈ (0xEF#8 :: rep 50 7#8).take (1#8).toNat, r.toNat < 240) := by decide +kernel

end Sys2Proof.Tests
end

section
/-! PROOFS. The ring's derived quantities under the invariant, and what RB_PUSH, RB_POP and RB_READ_EXACT do to them
(10_state.md R22 to R26; 41_ring_buffer.md R111 to R113). -/

namespace Sys2Proof.Machine

/-! ## Size, full and empty (10_state.md R24) -/

/-- size() without a remainder. -/
theorem State.size_eq_ite (s : State) (hw : s.rbWr < s.rbN) (hr : s.rbRd < s.rbN) :
    s.size = if s.rbRd ≤ s.rbWr then s.rbWr - s.rbRd else s.rbWr + s.rbN - s.rbRd := by
  rcases s.size_cases hw hr with ⟨h, e⟩ | ⟨h, e⟩
  · rw [if_pos h, e]
  · rw [if_neg (by omega), e]

theorem State.empty_iff_size (s : State) (hw : s.rbWr < s.rbN) (hr : s.rbRd < s.rbN) : s.empty ↔ s.size = 0 := by
  rcases s.size_cases hw hr with ⟨h, e⟩ | ⟨h, e⟩ <;> simp only [State.empty] <;> omega

theorem State.full_iff_size (s : State) (hw : s.rbWr < s.rbN) (hr : s.rbRd < s.rbN) :
    s.full ↔ s.size = s.rbN - 1 := by
  simp only [State.full, State.slot]
  rcases s.size_cases hw hr with ⟨h, e⟩ | ⟨h, e⟩ <;> rcases succ_mod_cases hw with ⟨h', e'⟩ | ⟨h', e'⟩ <;> omega

/-- size() + remaining() = RB_N - 1 (10_state.md R25). -/
theorem State.size_add_remaining (s : State) (h : 0 < s.rbN) : s.size + s.remaining = s.rbN - 1 := by
  have := s.size_lt h
  unfold State.remaining
  omega

/-! ## The cursors' width (10_state.md R22) -/

theorem le_two_pow_cursorWidth (n : Nat) : n ≤ 2 ^ Config.cursorWidth n :=
  (Nat.le_pow_clog Nat.one_lt_two n).trans (Nat.pow_le_pow_right Nat.two_pos (le_max_right _ _))

theorem cursorWidth_le {n : Nat} (h : Config.legalSlots n) : Config.cursorWidth n ≤ 16 :=
  max_le (by decide) (Nat.clog_le_of_le_pow h.2)

/-! ## The contents (10_state.md R26) -/

/-- Where every slot of the contents is written, the contents are those slots' bytes, none left out. -/
theorem State.map_some_contents {s : State} (h : s.Inv) :
    s.contents.map some = (List.range s.size).map (fun j => s.rb.read (s.slot (s.rbRd + j))) := by
  obtain ⟨-, -, -, -, -, hwritten⟩ := h
  rw [State.contents, List.map_filterMap_some_eq_filter_map_isSome, List.filter_eq_self]
  simpa using hwritten

theorem State.length_contents {s : State} (h : s.Inv) : s.contents.length = s.size := by
  simpa using congrArg List.length (State.map_some_contents h)

/-- Byte `j` of the contents is the byte in the slot `j` places on from the read cursor. -/
theorem State.getElem?_contents {s : State} (h : s.Inv) {j : Nat} (hj : j < s.size) :
    s.contents[j]? = s.rb.read (s.slot (s.rbRd + j)) := by
  have hmap : s.contents[j]?.map some = some (s.rb.read (s.slot (s.rbRd + j))) := by
    rw [← List.getElem?_map, State.map_some_contents h, List.getElem?_map, List.getElem?_range hj, Option.map_some]
  have hlt : j < s.contents.length := by rwa [State.length_contents h]
  simpa [List.getElem?_eq_getElem hlt] using hmap

/-- Reading `n ≤ size()` slots from the read cursor on gives the `n` oldest bytes of the contents: no such read faults
(10_state.md R35). -/
theorem State.readSlots_contents {s : State} (h : s.Inv) {n : Nat} (hn : n ≤ s.size) :
    s.readSlots s.rbRd n = .ok (s.contents.take n) := by
  obtain ⟨⟨hN, -⟩, -⟩ := id h
  have hlen : (s.contents.take n).length = n := by simp [State.length_contents h, hn]
  refine State.readSlots_ok.2 ⟨hlen, fun j hj => State.readSlot_ok.2 ⟨Nat.mod_lt _ (by omega), ?_⟩⟩
  rw [← State.getElem?_contents h (by omega), List.getElem_take, List.getElem?_eq_getElem]

/-- The oldest byte of a buffer that is not empty can be read. -/
theorem State.exists_readSlot_rbRd {s : State} (h : s.Inv) (hne : ¬ s.empty) : ∃ v, s.readSlot s.rbRd = .ok v := by
  obtain ⟨-, hw, hr, -, -, hwritten⟩ := h
  have hpos : 0 < s.size := Nat.pos_of_ne_zero (mt (s.empty_iff_size hw hr).2 hne)
  obtain ⟨v, hv⟩ := Option.isSome_iff_exists.1 (hwritten 0 hpos)
  rw [State.slot, Nat.add_zero, Nat.mod_eq_of_lt hr] at hv
  exact ⟨v, State.readSlot_ok.2 ⟨hr, hv⟩⟩

/-! ## RB_READ_EXACT and RB_POP move the read cursor over bytes of the contents -/

theorem State.size_advanceRd {s : State} (h : s.Inv) {n : Nat} (hn : n ≤ s.size) :
    (s.advanceRd n).size = s.size - n := by
  obtain ⟨⟨hN, -⟩, hw, hr, -⟩ := h
  have hlt := s.size_lt (by omega)
  have hsize := s.size_cases hw hr
  have hsize' := (s.advanceRd n).size_cases hw (Nat.mod_lt _ (show 0 < s.rbN by omega))
  have hadd := add_mod_cases hr (show n ≤ s.rbN by omega)
  simp only [State.advanceRd_rbWr, State.advanceRd_rbRd, State.advanceRd_rbN] at hsize'
  omega

theorem State.inv_advanceRd {s : State} (h : s.Inv) {n : Nat} (hn : n ≤ s.size) : (s.advanceRd n).Inv := by
  obtain ⟨hN, hw, hr, hwf, hcells, hwritten⟩ := id h
  refine ⟨hN, hw, Nat.mod_lt _ (show 0 < s.rbN by omega), hwf, hcells, fun j hj => ?_⟩
  rw [State.size_advanceRd h hn] at hj
  have hslot : (s.advanceRd n).slot ((s.advanceRd n).rbRd + j) = s.slot (s.rbRd + (n + j)) := by
    simp [State.slot, Nat.add_assoc]
  rw [hslot]
  exact hwritten (n + j) (by omega)

/-! ## RB_PUSH writes the slot after the contents -/

/-- The block's state after RB_PUSH of `v` (41_ring_buffer.md R111). -/
def State.pushed (s : State) (v : Byte) : State :=
  let t := State.advanceWr { s with rb := s.rb.write s.rbWr v }
  if s.full then t.discardOldest else t

@[simp] theorem State.pushed_rbN (s : State) (v : Byte) : (s.pushed v).rbN = s.rbN := by
  unfold State.pushed; split <;> rfl
@[simp] theorem State.pushed_rb (s : State) (v : Byte) : (s.pushed v).rb = s.rb.write s.rbWr v := by
  unfold State.pushed; split <;> rfl
@[simp] theorem State.pushed_rbWr (s : State) (v : Byte) : (s.pushed v).rbWr = (s.rbWr + 1) % s.rbN := by
  unfold State.pushed; split <;> rfl
@[simp] theorem State.pushed_rbRd (s : State) (v : Byte) :
    (s.pushed v).rbRd = if s.full then (s.rbRd + 1) % s.rbN else s.rbRd := by
  unfold State.pushed; split <;> rfl
@[simp] theorem State.pushed_rbDrops (s : State) (v : Byte) :
    (s.pushed v).rbDrops = if s.full then BitVec.ofNat 16 (min (s.rbDrops.toNat + 1) 65535) else s.rbDrops := by
  unfold State.pushed; split <;> rfl

/-- A push makes the buffer one byte longer, or leaves a full one full. -/
theorem State.size_pushed {s : State} (h : s.Inv) (v : Byte) :
    (s.pushed v).size = if s.full then s.size else s.size + 1 := by
  obtain ⟨⟨hN, -⟩, hw, hr, -⟩ := h
  have hw' := succ_mod_cases hw
  have hr' := succ_mod_cases hr
  have hsize := s.size_cases hw hr
  have hsize' := (s.pushed v).size_cases (by simp only [State.pushed_rbWr, State.pushed_rbN]; omega)
    (by simp only [State.pushed_rbRd, State.pushed_rbN]; split <;> omega)
  have hfull := s.full_iff_size hw hr
  simp only [State.pushed_rbWr, State.pushed_rbRd, State.pushed_rbN] at hsize'
  split at hsize' <;> rename_i hf
  · rw [if_pos hf]
    have := hfull.1 hf
    omega
  · rw [if_neg hf]
    have := mt hfull.2 hf
    omega

/-- After the write of a push every slot from the read cursor up to and including the write cursor is written. -/
theorem State.isSome_read_write {s : State} (h : s.Inv) (v : Byte) {j : Nat} (hj : j ≤ s.size) :
    ((s.rb.write s.rbWr v).read ((s.rbRd + j) % s.rbN)).isSome = true := by
  obtain ⟨-, hw, hr, -, -, hwritten⟩ := h
  rw [Memory.read_write]
  split
  · rfl
  · rename_i hne
    have hj' : j ≠ s.size := fun e => hne (e ▸ s.slot_rd_add_size hw hr)
    exact hwritten j (by omega)

theorem State.inv_pushed {s : State} (h : s.Inv) (v : Byte) : (s.pushed v).Inv := by
  obtain ⟨hN, hw, hr, hwf, hcells, -⟩ := id h
  have hmod (x : Nat) : x % s.rbN < s.rbN := Nat.mod_lt _ (by omega)
  refine ⟨by rwa [State.pushed_rbN], by simpa using hmod _, ?_, by simpa using Memory.wf_write hwf _ v, ?_, ?_⟩
  · rw [State.pushed_rbRd, State.pushed_rbN]
    split
    · exact hmod _
    · exact hr
  · intro c hc
    rw [State.pushed_rb] at hc
    rw [State.pushed_rbN]
    rcases Memory.mem_write hc with rfl | hc
    · exact hw
    · exact hcells c hc
  · intro j hj
    rw [State.size_pushed h] at hj
    rw [State.slot, State.pushed_rb, State.pushed_rbRd, State.pushed_rbN]
    split
    · rename_i hf
      rw [if_pos hf] at hj
      rw [Nat.mod_add_mod, Nat.add_assoc]
      exact State.isSome_read_write h v (by omega)
    · rename_i hf
      rw [if_neg hf] at hj
      exact State.isSome_read_write h v (by omega)

/-- The drop counter saturates and never falls (10_state.md R23). -/
theorem State.rbDrops_le_pushed (s : State) (v : Byte) : s.rbDrops.toNat ≤ (s.pushed v).rbDrops.toNat := by
  rw [State.pushed_rbDrops]
  split
  · rw [BitVec.toNat_ofNat]
    have := s.rbDrops.isLt
    omega
  · exact le_rfl

end Sys2Proof.Machine
end

section
/-! PROOFS. What an operation can do, said once, and what follows for every operation: it keeps the invariant and RB_N,
and under the invariant it answers. -/

namespace Sys2Proof.Machine

/-- `ExecResult s i u r`: executed in `s`, operation `i` can leave the block's state of `u` and answer `r`. Of the seven
operations that write no block state it says no more than that (41_ring_buffer.md R111 to R113; 10_state.md R37). -/
inductive ExecResult (s : State) : Instr → State → Response → Prop
  | push (v : Byte) (h : s.rbWr < s.rbN) :
      ExecResult s (.rbPush v) (s.pushed v) ⟨.ok, .invalid, droppedBit (decide s.full), 0#16, []⟩
  | popEmpty (h : s.empty) : ExecResult s .rbPop s ⟨.noData, .invalid, 0#8, 0#16, []⟩
  | pop (v : Byte) (h : ¬ s.empty) (hv : s.readSlot s.rbRd = .ok v) :
      ExecResult s .rbPop (s.advanceRd 1) ⟨.ok, .invalid, v, 0#16, []⟩
  | readShort (n : Half) (h : s.size < n.toNat) :
      ExecResult s (.rbReadExact n) s ⟨.noData, .invalid, 0#8, 0#16, []⟩
  | readExact (n : Half) (out : List Byte) (h : n.toNat ≤ s.size) (hout : s.readSlots s.rbRd n.toNat = .ok out) :
      ExecResult s (.rbReadExact n) (s.advanceRd n.toNat) ⟨.ok, .invalid, 0#8, n, out⟩
  | stateless (i : Instr) (r : Response) (h : isStateless i = true) : ExecResult s i s r

/-- Three operations write block state. -/
theorem stateful_cases {i : Instr} (h : ¬ isStateless i = true) :
    (∃ v, i = .rbPush v) ∨ i = .rbPop ∨ ∃ n, i = .rbReadExact n := by
  cases i <;> simp [isStateless] at h ⊢

theorem exec_rbPush_pushed {s : State} (v : Byte) (h : s.rbWr < s.rbN) :
    exec (.rbPush v) s =
      .next ((s.pushed v).answer ⟨.ok, .invalid, droppedBit (decide s.full), 0#16, []⟩) :=
  execRbPush_eq v h

/-- An operation that answers does what `ExecResult` says, and gives its response to the agent served. -/
theorem exec_result {i : Instr} {s t : State} (h : exec i s = .next t) :
    ∃ u r, ExecResult s i u r ∧ t = u.answer r := by
  by_cases hi : isStateless i = true
  · obtain ⟨r, hr⟩ := exec_stateless hi s
    rw [hr] at h
    cases h
    exact ⟨s, r, .stateless i r hi, rfl⟩
  · obtain ⟨v, rfl⟩ | rfl | ⟨n, rfl⟩ := stateful_cases hi
    · have hw := execRbPush_next h
      rw [exec_rbPush_pushed v hw] at h
      cases h
      exact ⟨_, _, .push v hw, rfl⟩
    · obtain ⟨he, rfl⟩ | ⟨v, hne, hv, rfl⟩ := execRbPop_next h
      · exact ⟨_, _, .popEmpty he, rfl⟩
      · exact ⟨_, _, .pop v hne hv, rfl⟩
    · obtain ⟨hs, rfl⟩ | ⟨out, hn, hout, rfl⟩ := execRbReadExact_next h
      · exact ⟨_, _, .readShort n hs, rfl⟩
      · exact ⟨_, _, .readExact n out hn hout, rfl⟩

/-- Under the invariant every operation answers: a byte is read only where one was written, and the write cursor names a
slot (10_state.md R35; 20_memory.md R40). -/
theorem exec_answers {s : State} (h : s.Inv) (i : Instr) : ∃ t, exec i s = .next t := by
  obtain ⟨-, hw, -⟩ := id h
  by_cases hi : isStateless i = true
  · obtain ⟨r, hr⟩ := exec_stateless hi s
    exact ⟨_, hr⟩
  · obtain ⟨v, rfl⟩ | rfl | ⟨n, rfl⟩ := stateful_cases hi
    · exact ⟨_, exec_rbPush_pushed v hw⟩
    · by_cases he : s.empty
      · exact ⟨_, execRbPop_empty he⟩
      · obtain ⟨v, hv⟩ := State.exists_readSlot_rbRd h he
        exact ⟨_, execRbPop_eq he hv⟩
    · by_cases hs : s.size < n.toNat
      · exact ⟨_, execRbReadExact_short hs⟩
      · exact ⟨_, execRbReadExact_eq (by omega) (State.readSlots_contents h (by omega))⟩

theorem ExecResult.rbN {s u : State} {i : Instr} {r : Response} (h : ExecResult s i u r) : u.rbN = s.rbN := by
  cases h <;> simp

theorem ExecResult.inv {s u : State} {i : Instr} {r : Response} (h : ExecResult s i u r) (hs : s.Inv) : u.Inv := by
  obtain ⟨-, hw, hr, -⟩ := id hs
  cases h with
  | push v => exact State.inv_pushed hs v
  | popEmpty => exact hs
  | pop v hne => exact State.inv_advanceRd hs (Nat.pos_of_ne_zero (mt (s.empty_iff_size hw hr).2 hne))
  | readShort => exact hs
  | readExact n out hn => exact State.inv_advanceRd hs hn
  | stateless => exact hs

theorem ExecResult.rbDrops_le {s u : State} {i : Instr} {r : Response} (h : ExecResult s i u r) :
    s.rbDrops.toNat ≤ u.rbDrops.toNat := by
  cases h with
  | push v => exact s.rbDrops_le_pushed v
  | popEmpty | pop | readShort | readExact | stateless => exact le_rfl

/-- An operation other than RB_PUSH writes at most the read cursor. -/
theorem ExecResult.frame {s u : State} {i : Instr} {r : Response} (h : ExecResult s i u r)
    (hi : ∀ v, i ≠ .rbPush v) : u.rb = s.rb ∧ u.rbWr = s.rbWr ∧ u.rbDrops = s.rbDrops := by
  cases h with
  | push v => exact absurd rfl (hi v)
  | popEmpty | pop | readShort | readExact | stateless => exact ⟨rfl, rfl, rfl⟩

theorem exec_inv {i : Instr} {s t : State} (hs : s.Inv) (h : exec i s = .next t) : t.Inv := by
  obtain ⟨u, r, hu, rfl⟩ := exec_result h
  exact (u.answer_Inv r).2 (hu.inv hs)

theorem exec_rbN {i : Instr} {s t : State} (h : exec i s = .next t) : t.rbN = s.rbN := by
  obtain ⟨u, r, hu, rfl⟩ := exec_result h
  rw [State.answer_rbN, hu.rbN]

end Sys2Proof.Machine
end

section
/-! PROOFS. What a step can do, event by event (20_memory.md R49), and the invariant at reset and along steps and runs. -/

namespace Sys2Proof.Machine

theorem step_of_idle {s : State} (h : s.sched = []) : step s = .next s := by
  unfold step State.nextTurn
  rw [h]
  rfl

theorem step_of_reset {s : State} {rest : List Turn} (h : s.sched = .reset :: rest) :
    step s = .next s.passTurn.resetBlock := by
  unfold step State.nextTurn
  rw [h]
  rfl

theorem step_of_take {s : State} {a : Agent} {rest : List Turn} (h : s.sched = .take a :: rest) :
    step s = .next (s.passTurn.takeResponse a) := by
  unfold step State.nextTurn
  rw [h]
  rfl

/-- A turn of an agent with a response waiting, or with nothing pending, passes. -/
theorem step_of_blocked {s : State} {a : Agent} {rest : List Turn} (h : s.sched = .serve a :: rest)
    (hb : (s.port a).resp.isSome ∨ (s.port a).pending = []) : step s = .next s.passTurn := by
  have hnone : s.passTurn.accept a = none := by
    simp only [State.accept, State.passTurn_port]
    split
    · rename_i hr hp
      rw [hr, hp] at hb
      simp at hb
    · rfl
  simp [step, State.nextTurn, h, hnone]

/-- A request that can be accepted executes in the state with it out of its line and its turn past. -/
theorem step_of_aboutToServe {s : State} {a : Agent} {r : Request} {q : List Request} {rest : List Turn}
    (h : s.aboutToServe a r q rest) : step s = serveRequest r (s.accepted a q rest) := by
  obtain ⟨hsched, hresp, hpend⟩ := h
  have haccept : s.passTurn.accept a = some (r, s.accepted a q rest) := by
    simp only [State.accept, State.passTurn_port, hresp, hpend]
    cases a <;> simp [State.accepted, State.setPort, State.passTurn, hsched, hresp]
  simp [step, State.nextTurn, hsched, haccept]

/-- The agent of a scheduled turn is served, or its turn passes. -/
theorem State.aboutToServe_or_blocked {s : State} {a : Agent} {rest : List Turn} (h : s.sched = .serve a :: rest) :
    (∃ r q, s.aboutToServe a r q rest) ∨ (s.port a).resp.isSome ∨ (s.port a).pending = [] := by
  cases hresp : (s.port a).resp with
  | some p => exact .inr (.inl rfl)
  | none =>
    cases hpend : (s.port a).pending with
    | nil => exact .inr (.inr rfl)
    | cons r q => exact .inl ⟨r, q, h, hresp, hpend⟩

/-- Every step is one of five: the block idles, reset falls, a host takes its response, a turn passes, or an accepted
request is served. -/
theorem step_cases (s : State) :
    (s.sched = [] ∧ step s = .next s) ∨
    (∃ rest, s.sched = .reset :: rest ∧ step s = .next s.passTurn.resetBlock) ∨
    (∃ a rest, s.sched = .take a :: rest ∧ step s = .next (s.passTurn.takeResponse a)) ∨
    (∃ a rest, s.sched = .serve a :: rest ∧ ((s.port a).resp.isSome ∨ (s.port a).pending = []) ∧
      step s = .next s.passTurn) ∨
    ∃ a r q rest, s.aboutToServe a r q rest ∧ step s = serveRequest r (s.accepted a q rest) := by
  cases h : s.sched with
  | nil => exact .inl ⟨rfl, step_of_idle h⟩
  | cons turn rest =>
    cases turn with
    | reset => exact .inr (.inl ⟨rest, rfl, step_of_reset h⟩)
    | take a => exact .inr (.inr (.inl ⟨a, rest, rfl, step_of_take h⟩))
    | serve a =>
      rcases State.aboutToServe_or_blocked h with ⟨r, q, hs⟩ | hb
      · exact .inr (.inr (.inr (.inr ⟨a, r, q, rest, hs, step_of_aboutToServe hs⟩)))
      · exact .inr (.inr (.inr (.inl ⟨a, rest, rfl, hb, step_of_blocked h hb⟩)))

/-- A request served executes what it decodes to, is answered ILLEGAL_OP, or is refused (30_encoding.md R63;
20_memory.md R54). -/
theorem serveRequest_cases (r : Request) (s : State) :
    (∃ i, decode r = .ok i ∧ serveRequest r s = exec i s) ∨
    (decode r = .error .illegalOp ∧
      serveRequest r s = .next (s.answer ⟨.illegalOp, .invalid, 0#8, 0#16, []⟩)) ∨
    (decode r = .error .dataLengthMismatch ∧ serveRequest r s = .refused .dataLengthMismatch) := by
  unfold serveRequest
  cases hd : decode r with
  | ok i => exact .inl ⟨i, rfl, rfl⟩
  | error e =>
    cases e with
    | illegalOp => exact .inr (.inl ⟨rfl, rfl⟩)
    | dataLengthMismatch => exact .inr (.inr ⟨rfl, rfl⟩)

/-- A step that answers leaves the block's state as it is, resets it, or executes an operation. -/
theorem step_next_cases {s t : State} (h : step s = .next t) :
    (t.rb = s.rb ∧ t.rbWr = s.rbWr ∧ t.rbRd = s.rbRd ∧ t.rbDrops = s.rbDrops ∧ t.rbN = s.rbN) ∨
    t = s.passTurn.resetBlock ∨
    ∃ a r q rest i, s.aboutToServe a r q rest ∧ decode r = .ok i ∧ exec i (s.accepted a q rest) = .next t := by
  rcases step_cases s with ⟨-, hs⟩ | ⟨_, -, hs⟩ | ⟨_, _, -, hs⟩ | ⟨_, _, -, -, hs⟩ | ⟨a, r, q, rest, hserve, hs⟩ <;>
    rw [hs] at h
  · cases h
    exact .inl ⟨rfl, rfl, rfl, rfl, rfl⟩
  · cases h
    exact .inr (.inl rfl)
  · cases h
    exact .inl (by simp)
  · cases h
    exact .inl ⟨rfl, rfl, rfl, rfl, rfl⟩
  · rcases serveRequest_cases r (s.accepted a q rest) with ⟨i, hd, hi⟩ | ⟨-, hi⟩ | ⟨-, hi⟩ <;> rw [hi] at h
    · exact .inr (.inr ⟨a, r, q, rest, i, hserve, hd, h⟩)
    · cases h
      exact .inl (by simp)
    · cases h

/-! ## The invariant at reset, and along steps and runs -/

theorem State.size_resetWith (n : Nat) : (State.resetWith n).size = 0 := by
  simp [State.size, State.resetWith]

theorem State.inv_resetWith {n : Nat} (h : Config.legalSlots n) : (State.resetWith n).Inv := by
  have hpos : 0 < n := by omega
  refine ⟨h, hpos, hpos, Memory.wf_nil, nofun, fun j hj => ?_⟩
  rw [State.size_resetWith] at hj
  omega

theorem legalSlots_rbN : Config.legalSlots Config.rbN := by
  have := Config.slotsBeyondTwo.isLt
  unfold Config.rbN
  omega

theorem State.inv_resetBlock {s : State} (h : s.Inv) : s.resetBlock.Inv :=
  (State.Inv_congr (s := State.resetWith s.rbN) rfl rfl rfl rfl).2 (State.inv_resetWith h.1)

theorem State.inv_passTurn {s : State} : s.passTurn.Inv ↔ s.Inv := State.Inv_congr rfl rfl rfl rfl

theorem State.inv_accepted {s : State} {a : Agent} {q : List Request} {rest : List Turn} :
    (s.accepted a q rest).Inv ↔ s.Inv := State.Inv_congr (by simp) (by simp) (by simp) (by simp)

theorem step_inv {s t : State} (hs : s.Inv) (h : step s = .next t) : t.Inv := by
  rcases step_next_cases h with ⟨hb, hw, hr, -, hn⟩ | rfl | ⟨a, r, q, rest, i, -, -, he⟩
  · exact (State.Inv_congr hn hb hw hr).2 hs
  · exact State.inv_resetBlock (State.inv_passTurn.2 hs)
  · exact exec_inv (State.inv_accepted.2 hs) he

/-- RB_N is fixed when the block is built (00_scope.md R12). -/
theorem step_rbN {s t : State} (h : step s = .next t) : t.rbN = s.rbN := by
  rcases step_next_cases h with ⟨-, -, -, -, hn⟩ | rfl | ⟨a, r, q, rest, i, -, -, he⟩
  · exact hn
  · rfl
  · rw [exec_rbN he, State.accepted_rbN]

/-- What every step keeps holds at the end of every run from where it holds. -/
theorem run_induction {P : State → Prop} (hstep : ∀ s t, P s → step s = .next t → P t) (k : Nat) {s t : State}
    (hs : P s) (h : Host.Core.run Sys2Proof.core k s = .next t) : P t := by
  induction k generalizing s with
  | zero =>
    cases h
    exact hs
  | succ k ih =>
    cases hu : step s with
    | next u => exact ih (hstep s u hs hu) (by simpa [Host.Core.run, Sys2Proof.core, hu] using h)
    | fault f => simp [Host.Core.run, Sys2Proof.core, hu] at h
    | refused r => simp [Host.Core.run, Sys2Proof.core, hu] at h

end Sys2Proof.Machine
end

section
/-! PROOFS. The statements of 10_state.md. -/

open Sys2Proof Sys2Proof.Machine

/-- Settles O5: an operation keeps the invariant by what `ExecResult` says it can do, every other event leaves the
block's state as it is or resets it. -/
theorem stepKeepsInvariant : Obligations.StepKeepsInvariant :=
  fun _ _ => step_inv

/-- Settles O6, by induction over the run: every step keeps the invariant and RB_N. -/
theorem runKeepsSizeBounds : Obligations.RunKeepsSizeBounds := by
  intro k s t hs h
  have hkept (u v : State) : u.Inv ∧ u.rbN = s.rbN → step u = .next v → v.Inv ∧ v.rbN = s.rbN :=
    fun ⟨hu, hn⟩ hv => ⟨step_inv hu hv, (step_rbN hv).trans hn⟩
  obtain ⟨⟨⟨hN, -⟩, -⟩, hn⟩ := run_induction hkept k ⟨hs, rfl⟩ h
  have hlt := t.size_lt (by omega)
  exact ⟨by omega, t.size_add_remaining (by omega), hn⟩

/-- Settles O7: under the invariant every operation answers, and no other event can fault. -/
theorem stepNeverFaults : Obligations.StepNeverFaults := by
  intro s f hs h
  rcases step_cases s with ⟨-, h'⟩ | ⟨_, -, h'⟩ | ⟨_, _, -, h'⟩ | ⟨_, _, -, -, h'⟩ | ⟨a, r, q, rest, -, h'⟩ <;>
    rw [h'] at h
  · cases h
  · cases h
  · cases h
  · cases h
  · rcases serveRequest_cases r (s.accepted a q rest) with ⟨i, -, hi⟩ | ⟨-, hi⟩ | ⟨-, hi⟩ <;> rw [hi] at h
    · obtain ⟨t, ht⟩ := exec_answers (State.inv_accepted.2 hs) i
      rw [ht] at h
      cases h
    · cases h
    · cases h

/-- Settles O22. -/
theorem cursorsFitTheirWidth : Obligations.CursorsFitTheirWidth := by
  rintro s ⟨hN, hw, hr, -⟩
  have hle := le_two_pow_cursorWidth s.rbN
  exact ⟨hw, hr, hw.trans_le hle, hr.trans_le hle, cursorWidth_le hN⟩

/-- Settles O23. -/
theorem fullAndEmptyFromSize : Obligations.FullAndEmptyFromSize := by
  rintro s ⟨-, hw, hr, -⟩
  exact ⟨s.full_iff_size hw hr, s.empty_iff_size hw hr, s.size_eq_ite hw hr, rfl⟩

/-- Settles O24. -/
theorem contentsAreTheSlotsFromRead : Obligations.ContentsAreTheSlotsFromRead := by
  intro s h
  refine ⟨State.length_contents h, fun j hj => ⟨State.getElem?_contents h hj, ?_⟩⟩
  simpa [State.length_contents h] using hj

/-- Settles O39, by what `ExecResult` says an operation can do. -/
theorem onlyPushWritesSlots : Obligations.OnlyPushWritesSlots := by
  intro i s t h
  obtain ⟨u, r, hu, rfl⟩ := exec_result h
  refine ⟨by simpa using hu.rbDrops_le, fun hi => ?_⟩
  obtain ⟨hrb, hwr, hdrops⟩ := hu.frame hi
  simp [hrb, hwr, hdrops]

/-- Settles O1. -/
theorem resetLeavesEmptyBuffer : Obligations.ResetLeavesEmptyBuffer := by
  have hsize : State.reset.size = 0 := State.size_resetWith _
  refine ⟨rfl, rfl, rfl, fun _ => rfl, hsize, ?_, legalSlots_rbN⟩
  rw [State.remaining, hsize, Nat.sub_zero]

/-- Settles O4: after reset the contents are empty, so no slot has to be written. -/
theorem resetMeetsInvariant : Obligations.ResetMeetsInvariant :=
  ⟨fun _ => State.inv_resetWith, State.inv_resetWith legalSlots_rbN⟩
end

section
/-! PROOFS. The lengths of what the Frame Codec and the Chunker give (40_frame_codec.md R82, R87; 42_chunker.md R131 to
R133, R136). -/

namespace Sys2Proof.Machine

/-! ## Frames -/

/-- A frame is longer than its input by the delimiter and one code byte per block: at least one, at most one for every
254 bytes begun (40_frame_codec.md R82). -/
theorem length_cobsBlocks_bounds (blk S : List Byte) :
    blk.length + S.length + 2 ≤ (cobsBlocks blk S).length ∧
      (cobsBlocks blk S).length ≤
        blk.length + S.length + max 1 (ceilDiv (blk.length + S.length) 254) + 1 := by
  unfold ceilDiv
  induction S generalizing blk with
  | nil => simp only [cobsBlocks_nil, List.length_append, List.length_cons, List.length_nil]; omega
  | cons b rest ih =>
    by_cases hb : b = 0x00#8
    · have hnext := ih []
      simp only [hb, cobsBlocks_zero, List.length_append, List.length_cons, List.length_nil] at hnext ⊢
      omega
    · by_cases hfull : blk.length = 253
      · cases rest with
        | nil =>
          simp only [cobsBlocks_full_last hb hfull, List.length_append, List.length_cons, List.length_nil]
          omega
        | cons d rest =>
          have hnext := ih []
          simp only [cobsBlocks_full_more rest hb hfull, List.length_append, List.length_cons, List.length_nil]
            at hnext ⊢
          omega
      · have hnext := ih (blk ++ [b])
        rw [cobsBlocks_join rest hb (by omega)]
        simp only [List.length_append, List.length_cons, List.length_nil] at hnext ⊢
        omega

/-- The frame of a packet is 2 to MAX_FRAME bytes long (00_scope.md R11). -/
theorem length_cobsEncode_packet (cmd : Byte) {p : List Byte} (h : p.length ≤ 254) :
    2 ≤ (cobsEncode (cmd :: p)).length ∧ (cobsEncode (cmd :: p)).length ≤ 258 := by
  have hbounds := length_cobsBlocks_bounds [] (cmd :: p)
  simp only [ceilDiv, List.length_cons, List.length_nil] at hbounds
  unfold cobsEncode
  omega

/-- A decoded unit never exceeds the capacity (40_frame_codec.md R87). -/
theorem length_cobsDecode_le {F D : List Byte} (h : cobsDecode F = .ok D) : D.length ≤ 255 := by
  unfold cobsDecode at h
  split at h
  · cases h
  · cases h
  · exact cobsWalk_length (Nat.zero_le _) h

/-! ## Packets -/

theorem packetPayload_eq_take_drop (P : List Byte) (j : Nat) :
    packetPayload P j = (P.drop (254 * j)).take 254 := by
  simp only [packetPayload, slice, Config.maxPayload, List.take_eq_take_iff, List.length_drop]
  omega

theorem length_packetPayloads (P : List Byte) (k : Nat) : (packetPayloads P k).length = k := by
  simp [packetPayloads]

/-- The first `k` packets carry the first 254·k bytes (42_chunker.md R132). -/
theorem flatten_packetPayloads (P : List Byte) (k : Nat) : (packetPayloads P k).flatten = P.take (254 * k) := by
  induction k with
  | zero => rfl
  | succ k ih =>
    have hsucc : packetPayloads P (k + 1) = packetPayloads P k ++ [packetPayload P k] := by
      simp [packetPayloads, List.range_succ]
    rw [hsucc, List.flatten_append, ih, List.flatten_singleton, packetPayload_eq_take_drop, ← List.take_add]
    rfl

/-- The payloads of all packets are the whole bulk payload (42_chunker.md R135). -/
theorem flatten_packetPayloads_ceilDiv (P : List Byte) :
    (packetPayloads P (ceilDiv P.length 254)).flatten = P := by
  rw [flatten_packetPayloads, List.take_of_length_le (ceilDiv_mul_ge _)]

/-- A packet record is its payload and two bytes before it (30_encoding.md R73). -/
theorem length_flatMap_packetRecord (ps : List (List Byte)) :
    (ps.flatMap packetRecord).length = ps.flatten.length + 2 * ps.length := by
  induction ps with
  | nil => rfl
  | cons p ps ih =>
    simp only [List.flatMap_cons, List.flatten_cons, packetRecord, List.length_append, List.length_cons, ih]
    omega

/-- The bulk payload of `k` rows has T(k) bytes (42_chunker.md R131). -/
theorem length_bulkPayload {rows bm : List Byte} (hbm : bm.length = 12000) (h : ∀ r ∈ rows, r.toNat < 240) :
    (bulkPayload bm rows).length = bulkLength rows.length := by
  simp only [bulkPayload, bulkLength, List.length_append, List.length_cons, rows_length hbm h]
  omega

/-- An update of at most 240 rows goes in 1 to 49 packets (00_scope.md R15; 42_chunker.md R131). -/
theorem packetCount_bounds {k : Nat} (h : k ≤ 240) : 1 ≤ packetCount k ∧ packetCount k ≤ 49 := by
  simp only [packetCount, bulkLength, ceilDiv, Config.maxPayload]
  omega

/-- What BC_CHUNK accepts, and the packets it gives (42_chunker.md R133, R134). -/
theorem chunk_ok {rows bm : List Byte} {ps : List (List Byte)} (h : chunk rows bm = .ok ps) :
    rows.length ≤ 240 ∧ (∀ r ∈ rows, r.toNat < 240) ∧
      ps = packetPayloads (bulkPayload bm rows) (packetCount rows.length) := by
  unfold chunk at h
  split at h
  · cases h
  · rename_i hcount
    split at h
    · cases h
    · rename_i hlegal
      cases h
      exact ⟨Nat.not_lt.1 hcount, no_illegal_row.1 (Bool.not_eq_true _ ▸ hlegal), rfl⟩

/-- The records BC_CHUNK gives for `k` rows are Count(k) in number, and T(k) + 2·Count(k) bytes (42_chunker.md R133). -/
theorem length_chunk {rows bm : List Byte} {ps : List (List Byte)} (hbm : bm.length = 12000)
    (h : chunk rows bm = .ok ps) :
    ps.length = packetCount rows.length ∧
      (ps.flatMap packetRecord).length = bulkLength rows.length + 2 * packetCount rows.length := by
  obtain ⟨-, hlegal, rfl⟩ := chunk_ok h
  have hbulk := length_bulkPayload hbm hlegal
  have hflat := flatten_packetPayloads_ceilDiv (bulkPayload bm rows)
  rw [hbulk] at hflat
  refine ⟨length_packetPayloads _ _, ?_⟩
  rw [length_flatMap_packetRecord, length_packetPayloads, packetCount, Config.maxPayload, hflat, hbulk]

/-- What BC_UNCHUNK accepts: a legal row count and 51 bytes a row after it, which it gives back (42_chunker.md R136,
R137). -/
theorem unchunk_ok {P : List Byte} {u : BulkUpdate} (h : unchunk P = .ok u) :
    ∃ rest, P = u.count :: rest ∧ u.count.toNat ≤ 240 ∧ rest.length = 51 * u.count.toNat ∧
      (∀ r ∈ u.indices, r.toNat < 240) ∧ u.indices ++ u.rowData = rest := by
  unfold unchunk at h
  split at h
  · cases h
  · rename_i N rest
    split at h
    · cases h
    · rename_i hcount
      split at h
      · cases h
      · rename_i hlen
        simp only at h
        split at h
        · cases h
        · rename_i hlegal
          cases h
          have hrest : rest.length = 51 * N.toNat := by
            simp only [bulkLength, List.length_cons] at hlen
            omega
          refine ⟨rest, rfl, Nat.not_lt.1 hcount, hrest, no_illegal_row.1 (Bool.not_eq_true _ ▸ hlegal), ?_⟩
          rw [slice_append_slice _ (by omega) (by omega)]
          simp [slice, hrest]

end Sys2Proof.Machine
end

section
/-! PROOFS. What each of the seven operations that write no block state answers (10_state.md R37; 20_memory.md R47), and
the interface frame of every operation. -/

namespace Sys2Proof.Machine

/-! ## The Frame Codec and the Chunker, outcome by outcome -/

theorem exec_fcEncode_fits (cmd : Byte) {p : List Byte} (h : p.length ≤ 254) (s : State) :
    exec (.fcEncode cmd p) s = .next (s.answer ⟨.ok, .invalid, 0#8,
      BitVec.ofNat 16 (cobsEncode (cmd :: p)).length, cobsEncode (cmd :: p)⟩) := by
  have hfits : ¬ Config.maxPayload < p.length := Nat.not_lt.2 h
  simp [exec, execFcEncode, hfits]

theorem exec_fcEncode_tooLarge (cmd : Byte) {p : List Byte} (h : 254 < p.length) (s : State) :
    exec (.fcEncode cmd p) s = .next (s.answer ⟨.payloadTooLarge, .invalid, 0#8, 0#16, []⟩) := by
  have hlong : Config.maxPayload < p.length := h
  simp [exec, execFcEncode, hlong]

theorem exec_fcDecode_packet {F p : List Byte} {c : Byte} (h : cobsDecode F = .ok (c :: p)) (s : State) :
    exec (.fcDecode F) s = .next (s.answer ⟨.ok, tagOf c, c, BitVec.ofNat 16 p.length, p⟩) := by
  simp [exec, execFcDecode, h, packetOf]

theorem exec_fcDecode_empty {F : List Byte} (h : cobsDecode F = .ok []) (s : State) :
    exec (.fcDecode F) s = .next (s.answer ⟨.truncated, .invalid, 0#8, 0#16, []⟩) := by
  simp [exec, execFcDecode, h, packetOf]

theorem exec_fcDecode_error {F : List Byte} {e : Status} (h : cobsDecode F = .error e) (s : State) :
    exec (.fcDecode F) s = .next (s.answer ⟨e, .invalid, 0#8, 0#16, []⟩) := by
  simp [exec, execFcDecode, h]

theorem exec_bcChunk_ok {rows bm : List Byte} {ps : List (List Byte)} (h : chunk rows bm = .ok ps) (s : State) :
    exec (.bcChunk rows bm) s =
      .next (s.answer ⟨.ok, .invalid, 0#8, BitVec.ofNat 16 ps.length, ps.flatMap packetRecord⟩) := by
  simp [exec, execBcChunk, h]

theorem exec_bcChunk_error {rows bm : List Byte} {e : Status} (h : chunk rows bm = .error e) (s : State) :
    exec (.bcChunk rows bm) s = .next (s.answer ⟨e, .invalid, 0#8, 0#16, []⟩) := by
  simp [exec, execBcChunk, h]

theorem exec_bcUnchunk_ok {P : List Byte} {u : BulkUpdate} (h : unchunk P = .ok u) (s : State) :
    exec (.bcUnchunk P) s =
      .next (s.answer ⟨.ok, .invalid, u.count, BitVec.ofNat 16 (51 * u.count.toNat), u.indices ++ u.rowData⟩) := by
  simp [exec, execBcUnchunk, h]

theorem exec_bcUnchunk_error {P : List Byte} {e : Status} (h : unchunk P = .error e) (s : State) :
    exec (.bcUnchunk P) s = .next (s.answer ⟨e, .invalid, 0#8, 0#16, []⟩) := by
  simp [exec, execBcUnchunk, h]

/-! ## All seven -/

/-- `StatelessResult s i r`: executed in `s`, operation `i`, which writes no block state, answers `r`
(41_ring_buffer.md R114 to R116; 40_frame_codec.md R94, R95; 42_chunker.md R133, R137). -/
inductive StatelessResult (s : State) : Instr → Response → Prop
  | size : StatelessResult s .rbSize ⟨.ok, .invalid, 0#8, BitVec.ofNat 16 s.size, []⟩
  | remaining : StatelessResult s .rbRemaining ⟨.ok, .invalid, 0#8, BitVec.ofNat 16 s.remaining, []⟩
  | drops : StatelessResult s .rbDrops ⟨.ok, .invalid, 0#8, s.rbDrops, []⟩
  | encode (cmd : Byte) (p : List Byte) (h : p.length ≤ 254) :
      StatelessResult s (.fcEncode cmd p)
        ⟨.ok, .invalid, 0#8, BitVec.ofNat 16 (cobsEncode (cmd :: p)).length, cobsEncode (cmd :: p)⟩
  | encodeTooLarge (cmd : Byte) (p : List Byte) (h : 254 < p.length) :
      StatelessResult s (.fcEncode cmd p) ⟨.payloadTooLarge, .invalid, 0#8, 0#16, []⟩
  | decode (F : List Byte) (c : Byte) (p : List Byte) (h : cobsDecode F = .ok (c :: p)) :
      StatelessResult s (.fcDecode F) ⟨.ok, tagOf c, c, BitVec.ofNat 16 p.length, p⟩
  | decodeEmpty (F : List Byte) (h : cobsDecode F = .ok []) :
      StatelessResult s (.fcDecode F) ⟨.truncated, .invalid, 0#8, 0#16, []⟩
  | decodeError (F : List Byte) (e : Status) (h : cobsDecode F = .error e) :
      StatelessResult s (.fcDecode F) ⟨e, .invalid, 0#8, 0#16, []⟩
  | chunk (rows bm : List Byte) (ps : List (List Byte)) (h : chunk rows bm = .ok ps) :
      StatelessResult s (.bcChunk rows bm)
        ⟨.ok, .invalid, 0#8, BitVec.ofNat 16 ps.length, ps.flatMap packetRecord⟩
  | chunkError (rows bm : List Byte) (e : Status) (h : Machine.chunk rows bm = .error e) :
      StatelessResult s (.bcChunk rows bm) ⟨e, .invalid, 0#8, 0#16, []⟩
  | unchunk (P : List Byte) (u : BulkUpdate) (h : unchunk P = .ok u) :
      StatelessResult s (.bcUnchunk P)
        ⟨.ok, .invalid, u.count, BitVec.ofNat 16 (51 * u.count.toNat), u.indices ++ u.rowData⟩
  | unchunkError (P : List Byte) (e : Status) (h : Machine.unchunk P = .error e) :
      StatelessResult s (.bcUnchunk P) ⟨e, .invalid, 0#8, 0#16, []⟩

theorem State.size_of_sameBlock {s t : State} (h : s.sameBlock t) : t.size = s.size := by
  obtain ⟨-, hw, hr, -, hn⟩ := h
  simp only [State.size, hw, hr, hn]

theorem State.remaining_of_sameBlock {s t : State} (h : s.sameBlock t) : t.remaining = s.remaining := by
  obtain ⟨-, -, -, -, hn⟩ := id h
  simp only [State.remaining, State.size_of_sameBlock h, hn]

theorem State.sameBlock_refl (s : State) : s.sameBlock s := ⟨fun _ => rfl, rfl, rfl, rfl, rfl⟩

theorem State.sameBlock_answer (s : State) (r : Response) : s.sameBlock (s.answer r) :=
  ⟨by simp, by simp, by simp, by simp, by simp⟩

/-- An operation that writes no block state gives one answer in every state with the same block state. -/
theorem exec_statelessResult {i : Instr} (hi : isStateless i = true) (s : State) :
    ∃ r, StatelessResult s i r ∧ ∀ t, s.sameBlock t → exec i t = .next (t.answer r) := by
  cases i with
  | rbPush v => cases hi
  | rbPop => cases hi
  | rbReadExact n => cases hi
  | rbSize => exact ⟨_, .size, fun t h => by rw [← State.size_of_sameBlock h]; rfl⟩
  | rbRemaining => exact ⟨_, .remaining, fun t h => by rw [← State.remaining_of_sameBlock h]; rfl⟩
  | rbDrops => exact ⟨_, .drops, fun t ⟨_, _, _, hd, _⟩ => by rw [← hd]; rfl⟩
  | fcEncode cmd p =>
    rcases Nat.lt_or_ge 254 p.length with h | h
    · exact ⟨_, .encodeTooLarge cmd p h, fun t _ => exec_fcEncode_tooLarge cmd h t⟩
    · exact ⟨_, .encode cmd p h, fun t _ => exec_fcEncode_fits cmd h t⟩
  | fcDecode F =>
    cases h : cobsDecode F with
    | error e => exact ⟨_, .decodeError F e h, fun t _ => exec_fcDecode_error h t⟩
    | ok D =>
      cases D with
      | nil => exact ⟨_, .decodeEmpty F h, fun t _ => exec_fcDecode_empty h t⟩
      | cons c p => exact ⟨_, .decode F c p h, fun t _ => exec_fcDecode_packet h t⟩
  | bcChunk rows bm =>
    cases h : chunk rows bm with
    | error e => exact ⟨_, .chunkError rows bm e h, fun t _ => exec_bcChunk_error h t⟩
    | ok ps => exact ⟨_, .chunk rows bm ps h, fun t _ => exec_bcChunk_ok h t⟩
  | bcUnchunk P =>
    cases h : unchunk P with
    | error e => exact ⟨_, .unchunkError P e h, fun t _ => exec_bcUnchunk_error h t⟩
    | ok u => exact ⟨_, .unchunk P u h, fun t _ => exec_bcUnchunk_ok h t⟩

/-- What an operation that answers did, with the answers of the operations that write no block state. -/
theorem exec_result_stateless {i : Instr} {s t : State} (h : exec i s = .next t) :
    ∃ u r, ExecResult s i u r ∧ (isStateless i = true → StatelessResult s i r) ∧ t = u.answer r := by
  by_cases hi : isStateless i = true
  · obtain ⟨r, hr, hexec⟩ := exec_statelessResult hi s
    rw [hexec s s.sameBlock_refl] at h
    cases h
    exact ⟨s, r, .stateless i r hi, fun _ => hr, rfl⟩
  · obtain ⟨u, r, hu, ht⟩ := exec_result h
    exact ⟨u, r, hu, fun hi' => absurd hi' hi, ht⟩

/-! ## The interface -/

@[simp] theorem State.pushed_port (s : State) (v : Byte) (a : Agent) : (s.pushed v).port a = s.port a := by
  unfold State.pushed; split <;> cases a <;> rfl
@[simp] theorem State.pushed_sched (s : State) (v : Byte) : (s.pushed v).sched = s.sched := by
  unfold State.pushed; split <;> rfl
@[simp] theorem State.pushed_serving (s : State) (v : Byte) : (s.pushed v).serving = s.serving := by
  unfold State.pushed; split <;> rfl

/-- What an operation does to the block's state leaves the interface alone. -/
theorem ExecResult.interface {s u : State} {i : Instr} {r : Response} (h : ExecResult s i u r) :
    (∀ a, u.port a = s.port a) ∧ u.sched = s.sched ∧ u.serving = s.serving := by
  cases h <;> simp

/-- Of the interface an operation sets the response of the agent served, and nothing else. -/
theorem exec_sameButResponse {i : Instr} {s t : State} (h : exec i s = .next t) : s.sameButResponse t := by
  obtain ⟨u, r, hu, rfl⟩ := exec_result h
  obtain ⟨hport, hsched, hserving⟩ := hu.interface
  have hanswer := u.answer_sameButResponse r
  simpa only [State.sameButResponse, hport, hsched, hserving] using hanswer

end Sys2Proof.Machine
end

section
/-! PROOFS. What a turn does to the agents' lines (20_memory.md R49, R55). -/

namespace Sys2Proof.Machine

/-- Taking a response moves it to the record of taken ones. -/
theorem State.takeResponse_of_waiting {s : State} {a : Agent} {p : Response} (h : (s.port a).resp = some p) :
    s.takeResponse a = s.setPort a { s.port a with resp := none, received := (s.port a).received ++ [p] } := by
  simp [State.takeResponse, h]

@[simp] theorem State.takeResponse_pending (s : State) (a b : Agent) :
    ((s.takeResponse a).port b).pending = (s.port b).pending := by
  unfold State.takeResponse
  split
  · by_cases h : b = a <;> simp [h]
  · rfl

/-- Serving an accepted request takes no further request out of a line. -/
theorem serveRequest_pending {r : Request} {s t : State} (h : serveRequest r s = .next t) (a : Agent) :
    (t.port a).pending = (s.port a).pending := by
  rcases serveRequest_cases r s with ⟨i, -, hi⟩ | ⟨-, hi⟩ | ⟨-, hi⟩ <;> rw [hi] at h
  · obtain ⟨hpend, -⟩ := exec_sameButResponse h
    exact hpend a
  · cases h
    exact State.answer_pending _ _ a
  · cases h

/-- A legal header with data of another length than it declares (20_memory.md R54). -/
theorem decode_of_length_ne {r : Request} {op : Op} (hop : decodeHeader r.header = some op)
    (hlen : r.data.length ≠ declaredLength op r.header) : decode r = .error .dataLengthMismatch := by
  have hno : ¬ hasLength r.data (declaredLength op r.header) = true := mt (hasLength_iff _ _).1 hlen
  simp only [decode, hop, if_neg hno]

end Sys2Proof.Machine
end

section
/-! PROOFS. The statements of 20_memory.md. -/

open Sys2Proof Sys2Proof.Machine

/-- Settles O12: of the five kinds of step only serving an accepted request touches a line, and it takes the request out
of the line of the agent served. -/
theorem requestsAreServedInIssueOrder : Obligations.RequestsAreServedInIssueOrder := by
  intro s t a h
  rcases step_cases s with ⟨-, hs⟩ | ⟨_, -, hs⟩ | ⟨_, _, -, hs⟩ | ⟨_, _, -, -, hs⟩ |
    ⟨b, r, q, rest, ⟨hsched, -, hpend⟩, hs⟩ <;> rw [hs] at h
  · cases h
    exact .inl rfl
  · cases h
    exact .inl (by simp)
  · cases h
    exact .inl (by simp)
  · cases h
    exact .inl (by simp)
  · have ht := serveRequest_pending h a
    by_cases hab : a = b
    · subst hab
      refine .inr ⟨by simp [State.nextTurn, hsched], r, ?_⟩
      rw [ht, State.accepted_port_self, hpend]
    · exact .inl (by rw [ht, State.accepted_port_other s q rest hab])

/-- Settles O37: the answer depends on the block's state alone, which answering leaves as it is. -/
theorem statelessOperationsFrame : Obligations.StatelessOperationsFrame := by
  intro i s hi
  obtain ⟨r, -, hexec⟩ := exec_statelessResult hi s
  have hblock := s.sameBlock_answer r
  exact ⟨s.answer r, (s.answer r).answer r, hexec s s.sameBlock_refl, hblock, s.answer_sameButResponse r,
    hexec _ hblock, by simp only [State.answer_response]⟩

/-- Settles O38, by what `ExecResult` says an operation can do. -/
theorem execTouchesOnlyItsResponse : Obligations.ExecTouchesOnlyItsResponse := by
  intro i s t h
  refine ⟨exec_sameButResponse h, exec_rbN h, ?_⟩
  obtain ⟨u, r, -, rfl⟩ := exec_result h
  rw [State.answer_response, Option.isSome_some]

/-- Settles O42, outcome by outcome: `len16` holds a length that fits it, and the length is the one the operation's
function gives. -/
theorem responseStreamLengths : Obligations.ResponseStreamLengths := by
  intro i s t r hwf h hr hok
  obtain ⟨u, r', hu, hstateless, rfl⟩ := exec_result_stateless h
  obtain rfl : r' = r := by simpa using hr
  cases hu with
  | push | pop => exact rfl
  | popEmpty | readShort => cases hok
  | readExact n out hn hout => exact ⟨rfl, (State.readSlots_ok.1 hout).1⟩
  | stateless i r hi =>
    cases hstateless hi with
    | size | remaining | drops => exact rfl
    | encode cmd p hp =>
      obtain ⟨hmin, hmax⟩ := length_cobsEncode_packet cmd hp
      have hlen := len16_ofNat (show (cobsEncode (cmd :: p)).length < 65536 by omega)
      exact ⟨hlen.symm, hmin.trans_eq hlen.symm, hlen.trans_le hmax⟩
    | decode F c p hF =>
      have hunit := length_cobsDecode_le hF
      rw [List.length_cons] at hunit
      have hlen := len16_ofNat (show p.length < 65536 by omega)
      exact ⟨hlen.symm, hlen.trans_le (by omega)⟩
    | chunk rows bm ps hps =>
      obtain ⟨-, hbm⟩ := wellFormed_bcChunk.1 hwf
      obtain ⟨hrows, -, -⟩ := chunk_ok hps
      obtain ⟨hcount, hdata⟩ := length_chunk hbm hps
      obtain ⟨hmin, hmax⟩ := packetCount_bounds hrows
      have hlen : (BitVec.ofNat 16 ps.length).toNat = packetCount rows.length := by
        rw [len16_ofNat (by omega), hcount]
      exact ⟨hlen, hmin.trans_eq hlen.symm, hlen.trans_le hmax, by rw [hlen, hdata]⟩
    | unchunk P u hu =>
      obtain ⟨rest, -, hcount, hrest, -, hdata⟩ := unchunk_ok hu
      have hlen := len16_ofNat (show 51 * u.count.toNat < 65536 by omega)
      exact ⟨by rw [hdata, hrest, hlen], hlen⟩
    | encodeTooLarge => cases hok
    | decodeEmpty => cases hok
    | decodeError F e he =>
      rcases cobsDecode_error he with rfl | rfl <;> cases hok
    | chunkError rows bm e he =>
      rcases chunk_error he with rfl | rfl <;> cases hok
    | unchunkError P e he =>
      rcases unchunk_error he with rfl | rfl | rfl <;> cases hok

/-- Settles O9. -/
theorem dataLengthMismatchIsRefused : Obligations.DataLengthMismatchIsRefused := by
  intro s a r q rest op hserve hop hlen
  rw [step_of_aboutToServe hserve, serveRequest, decode_of_length_ne hop hlen]

/-- Settles O10. -/
theorem stepRunsDecodedInstruction : Obligations.StepRunsDecodedInstruction := by
  intro s a r q rest i hserve hd
  rw [step_of_aboutToServe hserve, serveRequest, hd]

/-- Settles O11, one event at a time. -/
theorem turnsWithoutAnOperation : Obligations.TurnsWithoutAnOperation := by
  refine ⟨fun s h => step_of_idle h, fun s a rest h hb => ?_, fun s a rest p h hp => ?_⟩
  · rw [step_of_blocked h hb, State.passTurn, h, List.tail_cons]
  · refine ⟨_, step_of_take h, ?_⟩
    rw [State.takeResponse_of_waiting (p := p) (by simpa using hp)]
    refine ⟨by simp, by simp, by simp, fun b hb => by simp [hb], by simp [State.sameBlock], by simp [h]⟩
end

section
/-! PROOFS. The opcode map read field by field: which header fields an operation's row fixes, and what the decoder
answers in those terms (30_encoding.md R60 to R63, R76). -/

namespace Sys2Proof

/-! ## The operations' rows -/

/-- The ten operations, in the order of the opcode map. -/
def Op.all : List Op :=
  [.rbPush, .rbPop, .rbReadExact, .rbSize, .rbRemaining, .rbDrops, .fcEncode, .fcDecode, .bcChunk, .bcUnchunk]

/-- An operation's opcode (30_encoding.md R62). -/
def Op.code : Op → Byte
  | .rbPush => 0x01#8
  | .rbPop => 0x02#8
  | .rbReadExact => 0x03#8
  | .rbSize => 0x04#8
  | .rbRemaining => 0x05#8
  | .rbDrops => 0x06#8
  | .fcEncode => 0x10#8
  | .fcDecode => 0x11#8
  | .bcChunk => 0x20#8
  | .bcUnchunk => 0x21#8

/-- Whether `imm8` is an operand; R62 marks it "must be 0" for the other operations. -/
def Op.usesImm8 : Op → Bool
  | .rbPush | .fcEncode => true
  | .rbPop | .rbReadExact | .rbSize | .rbRemaining | .rbDrops | .fcDecode | .bcChunk | .bcUnchunk => false

/-- Whether `len16` is an operand; R62 marks it "must be 0" for the other operations. -/
def Op.usesLen16 : Op → Bool
  | .rbReadExact | .fcEncode | .fcDecode | .bcChunk | .bcUnchunk => true
  | .rbPush | .rbPop | .rbSize | .rbRemaining | .rbDrops => false

/-- An operation's row, built from its fields: the mask covers the opcode and the fields that must be 0. -/
def Op.row (op : Op) : OpRow where
  op := op
  pattern := headerOf op.code 0#8 0#16
  mask := headerOf 0xFF#8 (if op.usesImm8 then 0x00#8 else 0xFF#8) (if op.usesLen16 then 0x0000#16 else 0xFFFF#16)

/-- A legal header of an operation: it has its opcode, and the fields that are no operand are 0. -/
def Op.accepts (op : Op) (h : Word) : Prop :=
  h.opcode = op.code ∧ (op.usesImm8 = false → h.imm8 = 0#8) ∧ (op.usesLen16 = false → h.len16 = 0#16)

@[simp] theorem Op.mem_all (op : Op) : op ∈ Op.all := by
  cases op <;> decide

theorem Op.code_injective {a b : Op} (h : a.code = b.code) : a = b := by
  have hall : ∀ a ∈ Op.all, ∀ b ∈ Op.all, a.code = b.code → a = b := by decide
  exact hall a a.mem_all b b.mem_all h

theorem opcodeMap_eq_map_row : opcodeMap = Op.all.map Op.row := by decide

/-- The opcode map has one row per operation. -/
theorem mem_opcodeMap {r : OpRow} : r ∈ opcodeMap ↔ r = r.op.row := by
  rw [opcodeMap_eq_map_row, List.mem_map]
  refine ⟨?_, fun h => ⟨r.op, r.op.mem_all, h.symm⟩⟩
  rintro ⟨op, -, rfl⟩
  rfl

/-! ## Masked headers -/

theorem headerOf_and (o i o' i' : Byte) (l l' : Half) :
    headerOf o i l &&& headerOf o' i' l' = headerOf (o &&& o') (i &&& i') (l &&& l') :=
  (BitVec.and_append (x₁ := l) (x₂ := l')).trans (congrArg ((l &&& l') ++ ·) BitVec.and_append)

theorem headerOf_inj {o i o' i' : Byte} {l l' : Half} :
    headerOf o i l = headerOf o' i' l' ↔ o = o' ∧ i = i' ∧ l = l' := by
  constructor
  · intro h
    exact ⟨by simpa using congrArg Word.opcode h, by simpa using congrArg Word.imm8 h,
      by simpa using congrArg Word.len16 h⟩
  · rintro ⟨rfl, rfl, rfl⟩
    rfl

/-- A row selects a header when the header is one of its operation's. -/
theorem Op.row_selects {op : Op} {h : Word} : op.row.selects h = true ↔ op.accepts h := by
  have hmasked : h &&& op.row.mask = op.row.pattern ↔
      h.opcode &&& 0xFF#8 = op.code ∧ h.imm8 &&& (if op.usesImm8 then 0x00#8 else 0xFF#8) = 0#8 ∧
        h.len16 &&& (if op.usesLen16 then 0x0000#16 else 0xFFFF#16) = 0#16 := by
    conv_lhs => rw [← headerOf_fields h]
    rw [Op.row, headerOf_and, headerOf_inj]
  have hopcode : h.opcode &&& 0xFF#8 = h.opcode := BitVec.and_allOnes
  have himm8 : h.imm8 &&& 0xFF#8 = h.imm8 := BitVec.and_allOnes
  have hlen16 : h.len16 &&& 0xFFFF#16 = h.len16 := BitVec.and_allOnes
  rw [OpRow.selects, beq_iff_eq, hmasked, Op.accepts, hopcode]
  cases op.usesImm8 <;> cases op.usesLen16 <;> simp [himm8, hlen16]

theorem Op.eq_of_accepts {a b : Op} {h : Word} (ha : a.accepts h) (hb : b.accepts h) : a = b :=
  Op.code_injective (ha.1.symm.trans hb.1)

/-! ## The decoder -/

/-- The header decoding procedure answers the operation whose header it is. -/
theorem decodeHeader_eq_some {h : Word} {op : Op} : decodeHeader h = some op ↔ op.accepts h := by
  have hanswer {r : OpRow} (hr : opcodeMap.find? (·.selects h) = some r) : r.op.accepts h := by
    have hrow := mem_opcodeMap.1 (List.mem_of_find?_eq_some hr)
    have hsel : r.selects h = true := List.find?_some (p := fun r : OpRow => r.selects h) hr
    rw [hrow] at hsel
    exact Op.row_selects.1 hsel
  rw [decodeHeader, Option.map_eq_some_iff]
  constructor
  · rintro ⟨r, hr, rfl⟩
    exact hanswer hr
  · intro hacc
    cases hfind : opcodeMap.find? (·.selects h) with
    | some r => exact ⟨r, rfl, Op.eq_of_accepts (hanswer hfind) hacc⟩
    | none =>
      have hno := List.find?_eq_none.1 hfind op.row (mem_opcodeMap.2 rfl)
      exact absurd (Op.row_selects.2 hacc) hno

theorem decodeHeader_eq_none {h : Word} : decodeHeader h = none ↔ ∀ op : Op, ¬ op.accepts h := by
  simp only [Option.eq_none_iff_forall_ne_some, ne_eq, decodeHeader_eq_some]

/-- A request decodes when its header is an operation's and its data has the declared length. -/
theorem decode_eq_ok {r : Request} {i : Instr} :
    decode r = .ok i ↔
      ∃ op : Op, op.accepts r.header ∧ r.data.length = declaredLength op r.header ∧
        instrOf op r.header r.data = i := by
  simp only [← decodeHeader_eq_some]
  unfold decode
  cases decodeHeader r.header with
  | none => simp
  | some op => by_cases hlen : r.data.length = declaredLength op r.header <;> simp [hlen]

theorem decode_of_header_none {r : Request} (h : decodeHeader r.header = none) : decode r = .error .illegalOp := by
  rw [decode, h]

/-! ## Illegal headers -/

/-- With an assigned opcode a header is illegal by a field that must be 0 (30_encoding.md R63). -/
theorem illegalHeader_of_code {h : Word} {op : Op} (hcode : h.opcode = op.code) :
    Machine.illegalHeader h ↔
      (op.usesImm8 = false ∧ h.imm8 ≠ 0#8) ∨ (op.usesLen16 = false ∧ h.len16 ≠ 0#16) := by
  simp only [Machine.illegalHeader, hcode]
  cases op <;> simp [Op.code, Op.usesImm8, Op.usesLen16]

theorem illegalHeader_iff {h : Word} : Machine.illegalHeader h ↔ ∀ op : Op, ¬ op.accepts h := by
  by_cases hassigned : ∃ op : Op, h.opcode = op.code
  · obtain ⟨op, hcode⟩ := hassigned
    have honly : (∀ op' : Op, ¬ op'.accepts h) ↔ ¬ op.accepts h := by
      refine ⟨fun hall => hall op, fun hno op' hacc => hno ?_⟩
      obtain rfl : op' = op := Op.code_injective (hacc.1.symm.trans hcode)
      exact hacc
    rw [honly, illegalHeader_of_code hcode, Op.accepts]
    tauto
  · refine iff_of_true (.inl fun hmem => hassigned ?_) fun op hacc => hassigned ⟨op, hacc.1⟩
    obtain ⟨op, -, hop⟩ := List.mem_map.1 (show h.opcode ∈ Op.all.map Op.code from hmem)
    exact ⟨op, hop.symm⟩

end Sys2Proof
end

section
/-! PROOFS. Decoding an encoded instruction and encoding a decoded request (30_encoding.md R60 to R62), and a request's
bytes on a byte-wide channel (20_memory.md R43). -/

namespace Sys2Proof

open Laws (opOf)

/-! ## Decoding what was encoded -/

/-- The header an instruction encodes to is one of its operation's. -/
theorem accepts_encode (i : Instr) : (opOf i).accepts (encode i).header := by
  cases i <;> simp [Op.accepts, encode, opOf, Op.code, Op.usesImm8, Op.usesLen16]

/-- A well-formed instruction's request carries as much data as its header declares. -/
theorem length_encode (i : Instr) : Laws.DeclaresItsData.Statement i := by
  cases i with
  | rbPush v => exact Laws.DeclaresItsData.rbPush v
  | rbPop => exact Laws.DeclaresItsData.rbPop
  | rbReadExact n => exact Laws.DeclaresItsData.rbReadExact n
  | rbSize => exact Laws.DeclaresItsData.rbSize
  | rbRemaining => exact Laws.DeclaresItsData.rbRemaining
  | rbDrops => exact Laws.DeclaresItsData.rbDrops
  | fcEncode cmd p => exact Laws.DeclaresItsData.fcEncode cmd p
  | fcDecode f => exact Laws.DeclaresItsData.fcDecode f
  | bcChunk rows bm => exact Laws.DeclaresItsData.bcChunk rows bm
  | bcUnchunk p => exact Laws.DeclaresItsData.bcUnchunk p

/-- The operands read back; of BC_CHUNK's data, `len16` says where the row list ends. -/
theorem instrOf_encode {i : Instr} (h : i.wellFormed = true) :
    instrOf (opOf i) (encode i).header (encode i).data = i := by
  cases i with
  | bcChunk rows bm =>
    obtain ⟨hrows, -⟩ := wellFormed_bcChunk.1 h
    obtain ⟨htake, hdrop⟩ := take_drop_rows rows bm
    simp only [opOf, encode, instrOf, len16_headerOf, len16_ofNat hrows, htake, hdrop]
  | rbPush | rbPop | rbReadExact | rbSize | rbRemaining | rbDrops | fcEncode | fcDecode | bcUnchunk =>
    simp [opOf, encode, instrOf]

theorem decode_encode {i : Instr} (h : i.wellFormed = true) : decode (encode i) = .ok i :=
  decode_eq_ok.2 ⟨opOf i, accepts_encode i, length_encode i h, instrOf_encode h⟩

/-- A request that is known to be the encoding of an instruction decodes to it. -/
theorem decode_of_encode_eq {r : Request} {i : Instr} (h : i.wellFormed = true) (hr : encode i = r) :
    decode r = .ok i :=
  hr ▸ decode_encode h

/-! ## Encoding what was decoded -/

/-- A request is rebuilt from its header's fields. -/
theorem Request.mk_headerOf_eq {r : Request} {o i : Byte} {l : Half} {d : List Byte} (ho : r.header.opcode = o)
    (hi : r.header.imm8 = i) (hl : r.header.len16 = l) (hd : r.data = d) : ⟨headerOf o i l, d⟩ = r := by
  subst ho hi hl hd
  rw [headerOf_fields]

/-- A length that `len16` gives, as the field. -/
theorem len16_eq_ofNat {l : Half} {n : Nat} (h : n = l.toNat) : l = BitVec.ofNat 16 n := by
  rw [h, BitVec.ofNat_toNat, BitVec.setWidth_eq]

/-- The row list is as long as `len16` says (30_encoding.md R61). -/
theorem length_rows_of_bcChunk {r : Request} (h : r.data.length = declaredLength .bcChunk r.header) :
    (r.data.take r.header.len16.toNat).length = r.header.len16.toNat := by
  rw [List.length_take, h, declaredLength]
  exact Nat.min_eq_left (Nat.le_add_right _ _)

theorem encode_instrOf {op : Op} {r : Request} (h : op.accepts r.header)
    (hlen : r.data.length = declaredLength op r.header) : encode (instrOf op r.header r.data) = r := by
  obtain ⟨hcode, himm8, hlen16⟩ := h
  cases op with
  | rbPush => exact Request.mk_headerOf_eq hcode rfl (hlen16 rfl) (List.eq_nil_of_length_eq_zero hlen)
  | rbPop | rbSize | rbRemaining | rbDrops =>
    exact Request.mk_headerOf_eq hcode (himm8 rfl) (hlen16 rfl) (List.eq_nil_of_length_eq_zero hlen)
  | rbReadExact => exact Request.mk_headerOf_eq hcode (himm8 rfl) rfl (List.eq_nil_of_length_eq_zero hlen)
  | fcEncode => exact Request.mk_headerOf_eq hcode rfl (len16_eq_ofNat hlen) rfl
  | fcDecode | bcUnchunk => exact Request.mk_headerOf_eq hcode (himm8 rfl) (len16_eq_ofNat hlen) rfl
  | bcChunk =>
    exact Request.mk_headerOf_eq hcode (himm8 rfl) (len16_eq_ofNat (length_rows_of_bcChunk hlen))
      (List.take_append_drop _ _).symm

theorem wellFormed_instrOf {op : Op} {r : Request} (hlen : r.data.length = declaredLength op r.header) :
    (instrOf op r.header r.data).wellFormed = true := by
  have hfits : r.header.len16.toNat < 65536 := r.header.len16.isLt
  cases op with
  | rbPush | rbPop | rbReadExact | rbSize | rbRemaining | rbDrops => rfl
  | fcEncode | fcDecode | bcUnchunk => exact (fitsLen16_iff _).2 (hlen.trans_lt hfits)
  | bcChunk =>
    refine wellFormed_bcChunk.2 ⟨(length_rows_of_bcChunk hlen).trans_lt hfits, ?_⟩
    rw [List.length_drop, hlen, declaredLength, Nat.add_sub_cancel_left]
    rfl

/-! ## Bytes -/

/-- A header's four bytes, joined again. -/
theorem Word.append_bytes (h : Word) :
    h.extractLsb' 24 8 ++ (h.extractLsb' 16 8 ++ (h.extractLsb' 8 8 ++ h.extractLsb' 0 8)) = h := by
  rw [BitVec.extractLsb'_append_extractLsb'_eq_extractLsb' (by rfl),
    BitVec.extractLsb'_append_extractLsb'_eq_extractLsb' (by rfl),
    BitVec.extractLsb'_append_extractLsb'_eq_extractLsb' (by rfl), BitVec.extractLsb'_eq_self]

@[simp] theorem Request.ofBytes_toBytes (r : Request) : Request.ofBytes r.toBytes = some r :=
  congrArg (fun h => some (Request.mk h r.data)) (Word.append_bytes r.header)

theorem decodeBytes_toBytes {r : Request} {i : Instr} (h : decode r = .ok i) : decodeBytes r.toBytes = .ok i := by
  simp only [decodeBytes, Request.ofBytes_toBytes, h]

/-! ## Header words -/

theorem toNat_headerOf (o i : Byte) (l : Half) :
    (headerOf o i l).toNat = o.toNat + 2 ^ 8 * i.toNat + 2 ^ 16 * l.toNat := by
  have ho := o.isLt
  have hi := i.isLt
  rw [headerOf, BitVec.toNat_append, BitVec.toNat_append, ← Nat.shiftLeft_add_eq_or_of_lt ho,
    ← Nat.shiftLeft_add_eq_or_of_lt (by rw [Nat.shiftLeft_eq]; omega), Nat.shiftLeft_eq, Nat.shiftLeft_eq]
  omega

/-- Bits below bit 8 are bits of the low byte. -/
theorem Word.extractLsb'_low_byte {h : Word} {start len : Nat} (hle : start + len ≤ 8) :
    h.extractLsb' start len = h.opcode.extractLsb' start len :=
  (BitVec.extractLsb'_extractLsb'_of_le hle).symm

/-- A response's header word is laid out as a request's, with tag and status in place of the opcode (30_encoding.md
R60, R64). -/
theorem Machine.Response.header_eq_headerOf (r : Machine.Response) :
    r.header = headerOf (0#2 ++ (r.tag.field ++ r.status.code)) r.aux8 r.len16 := rfl

theorem Machine.Response.opcode_header (r : Machine.Response) :
    r.header.opcode = 0#2 ++ (r.tag.field ++ r.status.code) := by
  rw [r.header_eq_headerOf, opcode_headerOf]

theorem Machine.Response.imm8_header (r : Machine.Response) : r.header.imm8 = r.aux8 := by
  rw [r.header_eq_headerOf, imm8_headerOf]

theorem Machine.Response.len16_header (r : Machine.Response) : r.header.len16 = r.len16 := by
  rw [r.header_eq_headerOf, len16_headerOf]

end Sys2Proof
end

section
/-! PROOFS. Requests issued by host programs and requests with illegal headers, as steps serve them (30_encoding.md R63,
R75; 20_memory.md R49). -/

namespace Sys2Proof.Machine

/-- Lines of one agent, an operation each, issue their requests in order. -/
theorem State.issueProgram_map_instr (s : State) (a : Agent) (is : List Instr) :
    s.issueProgram (is.map fun i => ⟨a, .instr i⟩) = s.issueAll a (is.map encode) := by
  induction is generalizing s with
  | nil => simp
  | cons i is ih =>
    rw [List.map_cons, State.issueProgram_cons, ih, HostLine.requests_instr, State.issueAll_append]
    rfl

/-- The response is the served agent's. -/
theorem State.answer_resp {s : State} {a : Agent} {r : Response} (h : s.serving = a) :
    ((s.answer r).port a).resp = some r := by
  rw [← h, State.answer_port_serving]

/-- A line RB_PUSHS issues one RB_PUSH request per byte. -/
theorem State.issueProgram_rbPushs (s : State) (a : Agent) (bs : List Byte) :
    s.issueProgram [⟨a, .rbPushs bs⟩] = s.issueAll a (bs.map fun b => ⟨headerOf 0x01#8 b 0#16, []⟩) := by
  rw [State.issueProgram_cons, HostLine.requests_rbPushs, State.issueProgram_nil]

/-- A request issued to an idle interface is the one its agent's turn serves. -/
theorem State.aboutToServe_issueAll {s : State} {a : Agent} {rest : List Turn} (r : Request) (q : List Request)
    (hresp : (s.port a).resp = none) (hpend : (s.port a).pending = []) (hsched : s.sched = .serve a :: rest) :
    (s.issueAll a (r :: q)).aboutToServe a r q rest :=
  ⟨by simpa using hsched, by simpa using hresp, by simp [hpend]⟩

theorem serveRequest_rbPush {s : State} (v : Byte) (h : s.rbWr < s.rbN) :
    serveRequest ⟨headerOf 0x01#8 v 0#16, []⟩ s =
      .next ((s.pushed v).answer ⟨.ok, .invalid, droppedBit (decide s.full), 0#16, []⟩) := by
  have hdecode : decode ⟨headerOf 0x01#8 v 0#16, []⟩ = .ok (.rbPush v) := decode_encode (i := .rbPush v) rfl
  rw [serveRequest, hdecode]
  exact exec_rbPush_pushed v h

/-- A request with an illegal header is answered in the state in which it is accepted, whatever its data. -/
theorem step_of_illegalHeader {s : State} {a : Agent} {r : Request} {q : List Request} {rest : List Turn}
    (h : s.aboutToServe a r q rest) (hillegal : illegalHeader r.header) :
    step s = .next ((s.accepted a q rest).answer ⟨.illegalOp, .invalid, 0#8, 0#16, []⟩) := by
  have hnone := decodeHeader_eq_none.2 (illegalHeader_iff.1 hillegal)
  rw [step_of_aboutToServe h, serveRequest, decode_of_header_none hnone]
  rfl

end Sys2Proof.Machine
end

section
/-! PROOFS. The statements of 30_encoding.md. -/

open Sys2Proof Sys2Proof.Machine

/-- Settles O14: the header is one of the instruction's operation, declares its data's length, and its operands read
back. -/
theorem decodeOfEncode : Obligations.DecodeOfEncode :=
  fun _ h => ⟨decode_encode h, decodeBytes_toBytes (decode_encode h)⟩

/-- Settles O13: the two programs issue the same requests in the same order, and the first of them is what the agent's
turn serves. -/
theorem pseudoPushesAreOneAgentsPushes : Obligations.PseudoPushesAreOneAgentsPushes := by
  constructor
  · intro s a bs
    rw [State.issueProgram_rbPushs]
    refine ⟨?_, by simp, fun c hc => by simp [hc], by simp, by simp [State.sameBlock]⟩
    have hlines := s.issueProgram_map_instr a (bs.map .rbPush)
    rw [List.map_map, List.map_map] at hlines
    exact hlines.symm
  · intro s a b bs rest hs hresp hpend hsched
    obtain ⟨-, hw, -⟩ := hs
    have hserve := State.aboutToServe_issueAll ⟨headerOf 0x01#8 b 0#16, []⟩
      (bs.map fun c => ⟨headerOf 0x01#8 c 0#16, []⟩) hresp hpend hsched
    rw [State.issueProgram_rbPushs]
    have hstep := step_of_aboutToServe hserve
    rw [serveRequest_rbPush b (by simpa using hw)] at hstep
    exact ⟨_, _, hstep, State.answer_resp (by simp), rfl, by simp, by simp⟩

/-- Settles O15: the operation the decoder found has the header's opcode, and the fields that are no operand are 0. -/
theorem encodeOfDecode : Obligations.EncodeOfDecode := by
  intro r i h
  obtain ⟨op, hacc, hlen, rfl⟩ := decode_eq_ok.1 h
  exact ⟨encode_instrOf hacc hlen, wellFormed_instrOf hlen⟩

/-- Settles O16: every row is its operation's, and two operations accept no common header. -/
theorem headerDecodingProcedure : Obligations.HeaderDecodingProcedure := by
  refine ⟨fun h op => ?_, fun h => ?_, fun h r₁ hr₁ r₂ hr₂ h₁ h₂ => ?_, by decide⟩
  · rw [decodeHeader_eq_some, ← Op.row_selects]
    constructor
    · exact fun hsel => ⟨op.row, mem_opcodeMap.2 rfl, hsel, rfl⟩
    · rintro ⟨r, hr, hsel, rfl⟩
      exact mem_opcodeMap.1 hr ▸ hsel
  · simp [decodeHeader]
  · rw [mem_opcodeMap.1 hr₁, Op.row_selects] at h₁
    rw [mem_opcodeMap.1 hr₂, Op.row_selects] at h₂
    rw [mem_opcodeMap.1 hr₁, mem_opcodeMap.1 hr₂, Op.eq_of_accepts h₁ h₂]

/-- Settles O17. -/
theorem illegalHeaderFields : Obligations.IllegalHeaderFields :=
  fun _ => decodeHeader_eq_none.trans illegalHeader_iff.symm

/-- Settles O18. -/
theorem illegalRequestAnswersIllegalOp : Obligations.IllegalRequestAnswersIllegalOp := by
  intro s a r q rest hserve hillegal
  exact ⟨_, step_of_illegalHeader hserve hillegal, State.answer_resp (by simp), by simp [State.sameBlock], by simp⟩

/-- Settles O19: each legal word is the encoding of its instruction. -/
theorem specWordsDecode : Obligations.SpecWordsDecode := by
  refine ⟨decode_of_encode_eq rfl rfl, decode_of_encode_eq rfl rfl, decode_of_encode_eq rfl rfl,
    decode_of_encode_eq rfl rfl, decode_of_encode_eq rfl rfl, decode_of_encode_eq rfl rfl, decode_of_encode_eq rfl rfl,
    decode_of_encode_eq rfl rfl, decode_of_encode_eq rfl rfl, fun bm hbm => ?_, rfl, rfl, rfl⟩
  exact decode_of_encode_eq (wellFormed_bcChunk.2 ⟨by decide, hbm⟩) rfl

/-- Settles O20. -/
theorem headerFieldPlaces : Obligations.HeaderFieldPlaces := by
  refine ⟨fun o i l => ⟨opcode_headerOf o i l, imm8_headerOf o i l, len16_headerOf o i l, toNat_headerOf o i l⟩,
    Request.ofBytes_toBytes, fun h j hj => ?_⟩
  interval_cases j <;> rfl

/-- Settles O21: the fields of a header word, and the parts of its low byte. -/
theorem responseHeaderLayout : Obligations.ResponseHeaderLayout := by
  refine ⟨fun r => ⟨?_, ?_, ?_, r.imm8_header, r.len16_header⟩, by decide, by decide⟩
  · rw [Word.extractLsb'_low_byte (by decide), r.opcode_header, BitVec.extractLsb'_append_eq_of_add_le (by decide)]
    exact BitVec.extractLsb'_append_eq_right
  · rw [Word.extractLsb'_low_byte (by decide), r.opcode_header, BitVec.extractLsb'_append_eq_of_add_le (by decide)]
    exact BitVec.extractLsb'_append_eq_left
  · rw [Word.extractLsb'_low_byte (by decide), r.opcode_header]
    exact BitVec.extractLsb'_append_eq_left
end

section
/-! PROOFS. The Frame Codec's functions beside the spec's own loops and length formula (40_frame_codec.md R81, R85,
R98), and the mapping of command bytes and tags (R84). -/

namespace Sys2Proof.Machine

/-! ## The encoder -/

/-- The loop emits what the encoder emits, after what has been emitted. -/
theorem encodeLoop_eq (out blk S : List Byte) : encodeLoop out blk S = out ++ cobsBlocks blk S := by
  induction S generalizing out blk with
  | nil => simp [encodeLoop, cobsBlocks_nil]
  | cons b rest ih =>
    by_cases hb : b = 0x00#8
    · simp [encodeLoop, hb, ih, cobsBlocks_zero]
    by_cases hfull : blk.length = 253
    · cases rest with
      | nil => simp [encodeLoop, hb, hfull, Config.maxRun, cobsBlocks_full_last hb hfull]
      | cons d rest =>
        rw [encodeLoop]
        simp [hb, hfull, Config.maxRun, ih, cobsBlocks_full_more rest hb hfull]
    · simp [encodeLoop, hb, hfull, Config.maxRun, ih, cobsBlocks_join rest hb (by simpa using hfull)]

/-- Bytes that leave the open block below 254 join it. -/
theorem cobsBlocks_append {run : List Byte} (hrun : zeroFree run) (blk rest : List Byte)
    (hlen : blk.length + run.length ≤ 253) : cobsBlocks blk (run ++ rest) = cobsBlocks (blk ++ run) rest := by
  induction run generalizing blk with
  | nil => simp
  | cons b run ih =>
    obtain ⟨hb, hrun⟩ := List.forall_mem_cons.1 hrun
    simp only [List.length_cons] at hlen
    rw [List.cons_append, cobsBlocks_join _ hb (by omega), ih hrun _ (by simp; omega), List.append_assoc,
      List.singleton_append]

/-- A full run closes its block; a new block begins only if more input follows (40_frame_codec.md R81, R83). -/
theorem cobsEncode_full {run : List Byte} (hrun : zeroFree run) (hlen : run.length = 254) (rest : List Byte) :
    cobsEncode (run ++ rest) = 0xFF#8 :: (run ++ if rest = [] then [0x00#8] else cobsEncode rest) := by
  obtain ⟨init, b, rfl⟩ := List.eq_nil_or_concat run |>.resolve_left (by rintro rfl; simp at hlen)
  simp only [List.concat_eq_append] at hrun hlen ⊢
  obtain ⟨hinit, hb⟩ := List.forall_mem_append.1 hrun
  have hb := List.forall_mem_singleton.1 hb
  have hinitLen : init.length = 253 := by simpa using hlen
  rw [cobsEncode, List.append_assoc, cobsBlocks_append hinit [] _ (by simp; omega), List.nil_append,
    List.singleton_append]
  cases rest with
  | nil => simp [cobsBlocks_full_last hb hinitLen]
  | cons d rest => simp [cobsBlocks_full_more rest hb hinitLen, cobsEncode]

/-- An input without zeros that does not fill a block is one block. -/
theorem cobsEncode_run {run : List Byte} (hrun : zeroFree run) (hlen : run.length ≤ 253) :
    cobsEncode run = blockCode run :: run ++ [0x00#8] := by
  have h := cobsBlocks_append hrun [] [] (by simpa using hlen)
  rw [List.append_nil] at h
  exact h.trans (cobsBlocks_nil run)

/-- A zero closes a block below 254. -/
theorem cobsEncode_zero {run : List Byte} (hrun : zeroFree run) (hlen : run.length ≤ 253) (rest : List Byte) :
    cobsEncode (run ++ 0x00#8 :: rest) = blockCode run :: (run ++ cobsEncode rest) := by
  rw [cobsEncode, cobsBlocks_append hrun [] _ (by simpa using hlen)]
  exact cobsBlocks_zero run rest

/-! ## The length of a frame -/

theorem segments_ne_nil (seg S : List Byte) : segments seg S ≠ [] := by
  induction S generalizing seg with
  | nil => simp [segments]
  | cons b rest ih =>
    unfold segments
    split
    · simp
    · exact ih _

/-- A closed segment's blocks come before those of the rest. -/
theorem blocksOf_closed (seg S : List Byte) :
    blocksOf (seg :: segments [] S) = seg.length / 254 + 1 + blocksOf (segments [] S) := by
  obtain ⟨s, ss, h⟩ := List.exists_cons_of_ne_nil (segments_ne_nil [] S)
  rw [h, blocksOf]
  simp

/-- A full run is one block of its segment, whatever follows it. -/
theorem blocksOf_segments_full {run seg S : List Byte} (hrun : run.length = 254) (hmore : seg ++ S ≠ []) :
    blocksOf (segments (run ++ seg) S) = blocksOf (segments seg S) + 1 := by
  induction S generalizing seg with
  | nil =>
    have hseg : 0 < seg.length := List.length_pos_iff.2 (by simpa using hmore)
    simp only [segments, blocksOf, ceilDiv, List.length_append, hrun]
    omega
  | cons b rest ih =>
    by_cases hb : b = 0x00#8
    · simp only [segments, hb, if_true, blocksOf_closed, List.length_append, hrun]
      omega
    · simp only [segments, hb, if_false, List.append_assoc]
      exact ih (by simp)

/-- The length of what is emitted, `blk` being the open block of the open segment (40_frame_codec.md R98). -/
theorem length_cobsBlocks (blk S : List Byte) (hblk : blk.length ≤ 253) :
    (cobsBlocks blk S).length + S.count 0x00#8 = blk.length + S.length + blocksOf (segments blk S) + 1 := by
  induction S generalizing blk with
  | nil =>
    simp only [cobsBlocks_nil, segments, blocksOf, ceilDiv, List.length_append, List.length_cons, List.length_nil,
      List.count_nil]
    omega
  | cons b rest ih =>
    by_cases hb : b = 0x00#8
    · have hnext := ih [] (Nat.zero_le _)
      simp only [hb, cobsBlocks_zero, segments, if_true, blocksOf_closed, List.length_append, List.length_cons,
        List.length_nil, List.count_cons_self] at hnext ⊢
      omega
    have hcount : (b :: rest).count 0x00#8 = rest.count 0x00#8 := List.count_cons_of_ne hb
    simp only [segments, hb, if_false, hcount]
    by_cases hfull : blk.length = 253
    · have hrun : (blk ++ [b]).length = 254 := by simp [hfull]
      cases rest with
      | nil => simp [cobsBlocks_full_last hb hfull, segments, blocksOf, ceilDiv, hrun, hfull]
      | cons d rest =>
        have hnext := ih [] (Nat.zero_le _)
        have hblocks := blocksOf_segments_full (seg := []) hrun (List.cons_ne_nil d rest)
        rw [List.append_nil] at hblocks
        rw [cobsBlocks_full_more rest hb hfull, hblocks]
        simp only [List.length_append, List.length_cons, List.length_nil] at hnext ⊢
        omega
    · have hnext := ih (blk ++ [b]) (by simp; omega)
      rw [cobsBlocks_join rest hb (by omega)]
      simp only [List.length_append, List.length_cons, List.length_nil] at hnext ⊢
      omega

/-! ## The decoder -/

/-- CobsDecode of a frame with a delimiter: the walk of its body, whatever follows (40_frame_codec.md R85). -/
theorem cobsDecode_append {B : List Byte} (hB : zeroFree B) (F : List Byte) :
    cobsDecode (B ++ 0x00#8 :: F) = if B.length = 0 then .error .truncated else cobsWalk B 0 [] := by
  cases B with
  | nil => rfl
  | cons c rest => rw [cobsDecode_body hB, if_neg (by simp)]

theorem cobsDecode_of_zeroFree {F : List Byte} (h : zeroFree F) : cobsDecode F = .error .truncated := by
  rw [cobsDecode, frameBody_of_zeroFree h]

/-- Passing over bytes is dropping them. -/
theorem cobsWalk_drop {rest : List Byte} {k : Nat} (h : k ≤ rest.length) (D : List Byte) :
    cobsWalk rest k D = cobsWalk (rest.drop k) 0 D := by
  have hskip := cobsWalk_skip (rest.take k) (rest.drop k) D
  rwa [List.take_append_drop, List.length_take_of_le h] at hskip

/-- What a walk that decodes did at its first block: the block fits in the body, and it was the last, or one below
`0xFF`, or a `0xFF` block (40_frame_codec.md R85). -/
theorem cobsWalk_eq_ok {c : Byte} {rest D E : List Byte} (hc : c ≠ 0x00#8) (h : cobsWalk (c :: rest) 0 D = .ok E) :
    ∃ blk tail, rest = blk ++ tail ∧ c.toNat = blk.length + 1 ∧
      (tail = [] ∧ E = D ++ blk ∨
        tail ≠ [] ∧ blk.length ≤ 253 ∧ cobsWalk tail 0 (D ++ blk ++ [0x00#8]) = .ok E ∨
        tail ≠ [] ∧ blk.length = 254 ∧ cobsWalk tail 0 (D ++ blk) = .ok E) := by
  have hpos : c.toNat ≠ 0 := fun h0 => hc (BitVec.eq_of_toNat_eq h0)
  have hbyte : c.toNat < 256 := c.isLt
  by_cases hptr : rest.length < c.toNat - 1
  · simp [cobsWalk, hptr] at h
  have hblk : (rest.take (c.toNat - 1)).length = c.toNat - 1 := List.length_take_of_le (Nat.not_lt.1 hptr)
  refine ⟨_, _, (List.take_append_drop (c.toNat - 1) rest).symm, by omega, ?_⟩
  simp only [cobsWalk, hptr, if_false, cobsWalk_drop (Nat.not_lt.1 hptr)] at h
  split at h
  · cases h
  by_cases htail : rest.drop (c.toNat - 1) = []
  · have hall : ¬ c.toNat - 1 < rest.length := Nat.not_lt.2 (List.drop_eq_nil_iff.1 htail)
    simp only [hall, and_false, if_false, htail, cobsWalk, Except.ok.injEq] at h
    exact .inl ⟨htail, h.symm⟩
  · have hmore : c.toNat - 1 < rest.length := Nat.not_le.1 (mt List.drop_eq_nil_iff.2 htail)
    split at h
    · split at h
      · cases h
      · exact .inr (.inl ⟨htail, by omega, h⟩)
    · exact .inr (.inr ⟨htail, by omega, h⟩)

/-- From offset `i` of a body the loop does what the walk does from there, with fuel for one byte a turn. -/
theorem decodeLoop_eq {B : List Byte} (hB : zeroFree B) (fuel i : Nat) (D : List Byte) (hfuel : B.length ≤ i + fuel) :
    decodeLoop B fuel i D = cobsWalk (B.drop i) 0 D := by
  induction fuel generalizing i D with
  | zero => simp [decodeLoop, List.drop_of_length_le (show B.length ≤ i from hfuel), cobsWalk]
  | succ fuel ih =>
    by_cases hi : i < B.length
    · have hc : B[i].toNat ≠ 0 := fun h0 => hB _ (List.getElem_mem hi) (BitVec.eq_of_toNat_eq h0)
      have hlen : (B.drop (i + 1)).length = B.length - (i + 1) := List.length_drop
      have hptr : i + B[i].toNat > B.length ↔ (B.drop (i + 1)).length < B[i].toNat - 1 := by omega
      have hmore : i + B[i].toNat < B.length ↔ B[i].toNat - 1 < (B.drop (i + 1)).length := by omega
      have hrun : slice B (i + 1) (i + B[i].toNat) = (B.drop (i + 1)).take (B[i].toNat - 1) := by
        rw [slice, show i + B[i].toNat - (i + 1) = B[i].toNat - 1 by omega]
      have hnext (D' : List Byte) : ¬ (B.drop (i + 1)).length < B[i].toNat - 1 →
          decodeLoop B fuel (i + B[i].toNat) D' = cobsWalk (B.drop (i + 1)) (B[i].toNat - 1) D' := by
        intro hfit
        rw [ih _ _ (by omega), cobsWalk_drop (Nat.not_lt.1 hfit), List.drop_drop,
          show i + 1 + (B[i].toNat - 1) = i + B[i].toNat by omega]
      rw [List.drop_eq_getElem_cons hi]
      simp only [decodeLoop, cobsWalk, hi, if_true, List.getD_eq_getElem _ _ hi, hptr, hmore, hrun]
      split
      · rfl
      · rename_i hfit
        rw [hnext _ hfit, hnext _ hfit]
    · simp [decodeLoop, hi, List.drop_of_length_le (Nat.not_lt.1 hi), cobsWalk]

/-! ## Tags -/

theorem tagOf_codeOf (t : CommandTag) : tagOf (codeOf t) = t := by cases t <;> rfl

/-- The tag of a byte (40_frame_codec.md R84). -/
theorem tagOf_cases (b : Byte) :
    b = 0x01#8 ∧ tagOf b = .screenBuffer ∨ b = 0x02#8 ∧ tagOf b = .ack ∨
      b ≠ 0x01#8 ∧ b ≠ 0x02#8 ∧ tagOf b = .invalid := by
  by_cases h1 : b = 0x01#8
  · exact .inl ⟨h1, by simp [tagOf, h1]⟩
  by_cases h2 : b = 0x02#8
  · exact .inr (.inl ⟨h2, by simp [tagOf, h2]⟩)
  · exact .inr (.inr ⟨h1, h2, by simp [tagOf, h1, h2]⟩)

end Sys2Proof.Machine
end

section
/-! PROOFS. The bodies of frames as chains of blocks (30_encoding.md R70): which of them CobsDecode accepts, and which
CobsEncode gives (40_frame_codec.md R81 to R83, R85, R90, R91). -/

namespace Sys2Proof.Machine

/-! ## Code bytes -/

theorem blockCode_ne_zero {blk : List Byte} (h : blk.length ≤ 254) : blockCode blk ≠ 0x00#8 := by
  intro hzero
  have hcode := blockCode_toNat h
  simp [hzero] at hcode

theorem blockCode_of_full {blk : List Byte} (h : blk.length = 254) : blockCode blk = 0xFF#8 := by
  rw [blockCode, h]

/-- A code byte that is its block's length plus one is the block's code. -/
theorem eq_blockCode {c : Byte} {blk : List Byte} (h : c.toNat = blk.length + 1) : c = blockCode blk :=
  BitVec.eq_of_toNat_eq (h.trans (blockCode_toNat (by omega)).symm)

/-- The code bytes after a block are those of what follows it. -/
theorem codeBytes_skip (blk B : List Byte) : codeBytes (blk ++ B) blk.length = codeBytes B 0 := by
  induction blk with
  | nil => rfl
  | cons b blk ih => exact ih

theorem codeBytes_block {c : Byte} {blk : List Byte} (hc : c.toNat = blk.length + 1) (B : List Byte) :
    codeBytes (c :: (blk ++ B)) 0 = c :: codeBytes B 0 := by
  rw [codeBytes, hc, Nat.add_sub_cancel, codeBytes_skip]

theorem codeBytes_blockCode {blk : List Byte} (h : blk.length ≤ 254) (B : List Byte) :
    codeBytes (blockCode blk :: (blk ++ B)) 0 = blockCode blk :: codeBytes B 0 :=
  codeBytes_block (blockCode_toNat h) B

theorem codeBytes_last {blk : List Byte} (h : blk.length ≤ 254) :
    codeBytes (blockCode blk :: blk) 0 = [blockCode blk] := by
  simpa [codeBytes] using codeBytes_blockCode h []

theorem codeBytes_full {blk : List Byte} (h : blk.length = 254) (B : List Byte) :
    codeBytes (0xFF#8 :: (blk ++ B)) 0 = 0xFF#8 :: codeBytes B 0 :=
  codeBytes_block (by rw [h]; rfl) B

/-! ## Chains of blocks -/

/-- `CobsBody S B`: `B` is a chain of blocks that spells the unit `S`. A block below `0xFF` with more after it stands
for its bytes and a zero; a `0xFF` block and the last block stand for their bytes alone (40_frame_codec.md R85). -/
inductive CobsBody : List Byte → List Byte → Prop
  | last {blk : List Byte} (hblk : zeroFree blk) (hlen : blk.length ≤ 254) : CobsBody blk (blockCode blk :: blk)
  | zero {blk S B : List Byte} (hblk : zeroFree blk) (hlen : blk.length ≤ 253) (h : CobsBody S B) :
      CobsBody (blk ++ 0x00#8 :: S) (blockCode blk :: (blk ++ B))
  | full {blk S B : List Byte} (hblk : zeroFree blk) (hlen : blk.length = 254) (h : CobsBody S B) :
      CobsBody (blk ++ S) (0xFF#8 :: (blk ++ B))

namespace CobsBody

/-- A body has no delimiter in it. -/
theorem body_zeroFree {S B : List Byte} (h : CobsBody S B) : zeroFree B := by
  induction h with
  | last hblk hlen => exact List.forall_mem_cons.2 ⟨blockCode_ne_zero hlen, hblk⟩
  | zero hblk hlen _ ih =>
    exact List.forall_mem_cons.2
      ⟨blockCode_ne_zero (Nat.le_succ_of_le hlen), List.forall_mem_append.2 ⟨hblk, ih⟩⟩
  | full hblk _ _ ih => exact List.forall_mem_cons.2 ⟨by decide, List.forall_mem_append.2 ⟨hblk, ih⟩⟩

/-- A body has at least one block. -/
theorem eq_cons {S B : List Byte} (h : CobsBody S B) : ∃ c rest, B = c :: rest := by
  cases h <;> exact ⟨_, _, rfl⟩

theorem codeBytes_ne_nil {S B : List Byte} (h : CobsBody S B) : codeBytes B 0 ≠ [] := by
  obtain ⟨c, rest, rfl⟩ := h.eq_cons
  exact List.cons_ne_nil _ _

/-- Only the empty block alone spells the empty unit. -/
theorem codeBytes_eq_singleton_iff {S B : List Byte} (h : CobsBody S B) : codeBytes B 0 = [0x01#8] ↔ S = [] := by
  cases h with
  | last hblk hlen =>
    have hcode := blockCode_toNat hlen
    rw [codeBytes_last hlen, List.singleton_inj]
    constructor
    · intro h
      rw [h] at hcode
      exact List.length_eq_zero_iff.1 (Nat.succ.inj hcode).symm
    · rintro rfl
      rfl
  | zero _ hlen h => simp [codeBytes_blockCode (Nat.le_succ_of_le hlen), h.codeBytes_ne_nil]
  | @full blk _ _ _ hlen h =>
    have hne := List.ne_nil_of_length_pos (by omega : 0 < blk.length)
    simp [codeBytes_full hlen, h.codeBytes_ne_nil, hne]

/-- One block alone is not two. -/
theorem not_endsFullThenEmpty_last {blk : List Byte} (h : blk.length ≤ 254) :
    ¬ endsFullThenEmpty (blockCode blk :: blk) := by
  rw [endsFullThenEmpty, codeBytes_last h]
  exact fun hsuf => absurd hsuf.length_le (by simp)

/-- A block below `0xFF` is not the full one of a body's last two. -/
theorem endsFullThenEmpty_zero_iff {blk : List Byte} (h : blk.length ≤ 253) (B : List Byte) :
    endsFullThenEmpty (blockCode blk :: (blk ++ B)) ↔ endsFullThenEmpty B := by
  have hcode := blockCode_toNat (Nat.le_succ_of_le h)
  have hne : 0xFF#8 ≠ blockCode blk := by
    intro heq
    rw [← heq] at hcode
    simp at hcode
    omega
  simp [endsFullThenEmpty, codeBytes_blockCode (Nat.le_succ_of_le h), List.suffix_cons_iff, hne]

/-- A full block is the full one of a body's last two when nothing is left to spell after it. -/
theorem endsFullThenEmpty_full_iff {blk S B : List Byte} (hlen : blk.length = 254) (h : CobsBody S B) :
    endsFullThenEmpty (0xFF#8 :: (blk ++ B)) ↔ S = [] ∨ endsFullThenEmpty B := by
  rw [endsFullThenEmpty, codeBytes_full hlen, List.suffix_cons_iff, List.cons.injEq, eq_comm (a := [0x01#8]),
    h.codeBytes_eq_singleton_iff]
  simp

/-! ## The decoder -/

/-- The walk of a body appends the unit it spells, as long as the capacity allows (40_frame_codec.md R85, R87). -/
theorem walk_body {S B D : List Byte} (h : CobsBody S B) (hcap : D.length + S.length ≤ 255) :
    cobsWalk B 0 D = .ok (D ++ S) := by
  induction h generalizing D with
  | last hblk hlen => exact cobsWalk_last (blockCode_toNat hlen) hcap
  | zero hblk hlen h ih =>
    obtain ⟨d, rest, rfl⟩ := h.eq_cons
    simp only [List.length_append, List.length_cons] at hcap
    have hcode := blockCode_toNat (Nat.le_succ_of_le hlen)
    rw [cobsWalk_more hcode (by omega) (by omega), ih (by simp; omega)]
    simp
  | full hblk hlen h ih =>
    obtain ⟨d, rest, rfl⟩ := h.eq_cons
    simp only [List.length_append] at hcap
    rw [cobsWalk_full hlen (by omega), ih (by simp; omega), List.append_assoc]

/-- What a walk decodes is what the body spells. -/
theorem of_walk {c : Byte} {rest D E : List Byte} (hB : zeroFree (c :: rest))
    (h : cobsWalk (c :: rest) 0 D = .ok E) : ∃ S, E = D ++ S ∧ CobsBody S (c :: rest) := by
  induction hn : rest.length using Nat.strong_induction_on generalizing c rest D with
  | _ n ih =>
    obtain ⟨hc, hrest⟩ := List.forall_mem_cons.1 hB
    obtain ⟨blk, tail, rfl, hcode, hcase⟩ := cobsWalk_eq_ok hc h
    obtain ⟨hblk, htail⟩ := List.forall_mem_append.1 hrest
    have hlen : blk.length ≤ 254 := by have := c.isLt; omega
    obtain rfl := eq_blockCode hcode
    rcases hcase with ⟨rfl, rfl⟩ | ⟨hne, hlen, hwalk⟩ | ⟨hne, hfull, hwalk⟩
    · exact ⟨blk, rfl, by simpa using last hblk hlen⟩
    · obtain ⟨d, tail, rfl⟩ := List.exists_cons_of_ne_nil hne
      obtain ⟨S, rfl, hS⟩ := ih tail.length (by simp at hn; omega) htail hwalk rfl
      exact ⟨blk ++ 0x00#8 :: S, by simp, zero hblk hlen hS⟩
    · obtain ⟨d, tail, rfl⟩ := List.exists_cons_of_ne_nil hne
      obtain ⟨S, rfl, hS⟩ := ih tail.length (by simp at hn; omega) htail hwalk rfl
      exact ⟨blk ++ S, by simp, blockCode_of_full hfull ▸ full hblk hfull hS⟩

/-- CobsDecode gives exactly the unit that the body spells, if it fits in the capacity. -/
theorem decode_eq_ok_iff {B D : List Byte} (hB : zeroFree B) :
    cobsDecode (B ++ [0x00#8]) = .ok D ↔ CobsBody D B ∧ D.length ≤ 255 := by
  cases B with
  | nil =>
    constructor
    · intro h
      cases h
    · rintro ⟨h, -⟩
      obtain ⟨c, rest, hcons⟩ := h.eq_cons
      cases hcons
  | cons c rest =>
    rw [cobsDecode_body hB]
    constructor
    · intro h
      obtain ⟨S, rfl, hS⟩ := of_walk hB h
      exact ⟨hS, cobsWalk_length (Nat.zero_le _) h⟩
    · rintro ⟨h, hcap⟩
      simpa using h.walk_body (D := []) (by simpa using hcap)

/-! ## The encoder -/

/-- Every input, `blk` being its bytes in the open block, is spelled by a body that does not end in a full block and an
empty one. -/
theorem exists_of_input {blk : List Byte} (S : List Byte) (hblk : zeroFree blk) (hlen : blk.length ≤ 253) :
    ∃ B, CobsBody (blk ++ S) B ∧ ¬ endsFullThenEmpty B := by
  induction S generalizing blk with
  | nil =>
    have hlen := Nat.le_succ_of_le hlen
    exact ⟨_, by simpa using last hblk hlen, not_endsFullThenEmpty_last hlen⟩
  | cons b rest ih =>
    by_cases hb : b = 0x00#8
    · obtain ⟨B, hrest, hB⟩ := ih (List.forall_mem_nil _) (Nat.zero_le _)
      exact ⟨_, hb ▸ zero hblk hlen hrest, mt (endsFullThenEmpty_zero_iff hlen B).1 hB⟩
    have hjoin : zeroFree (blk ++ [b]) := List.forall_mem_append.2 ⟨hblk, List.forall_mem_singleton.2 hb⟩
    rw [List.append_cons]
    by_cases hfull : blk.length = 253
    · have hfull : (blk ++ [b]).length = 254 := by simp [hfull]
      by_cases hrest : rest = []
      · exact ⟨_, by simpa [hrest] using last hjoin hfull.le, not_endsFullThenEmpty_last hfull.le⟩
      · obtain ⟨B, h, hB⟩ := ih (List.forall_mem_nil _) (Nat.zero_le _)
        exact ⟨_, full hjoin hfull h, mt (endsFullThenEmpty_full_iff hfull h).1 (not_or.2 ⟨hrest, hB⟩)⟩
    · exact ih hjoin (by simp; omega)

/-- The encoder gives the body of its input that does not end in a full block and an empty one (40_frame_codec.md R81,
R83). -/
theorem encode_eq {S B : List Byte} (h : CobsBody S B) (hB : ¬ endsFullThenEmpty B) :
    cobsEncode S = B ++ [0x00#8] := by
  induction h with
  | @last blk hblk hlen =>
    rcases Nat.lt_or_eq_of_le hlen with hlen | hlen
    · exact cobsEncode_run hblk (by omega)
    · simpa [blockCode_of_full hlen] using cobsEncode_full hblk hlen []
  | zero hblk hlen _ ih => simp [cobsEncode_zero hblk hlen, ih (mt (endsFullThenEmpty_zero_iff hlen _).2 hB)]
  | full hblk hlen h ih =>
    obtain ⟨hS, hB⟩ := not_or.1 (mt (endsFullThenEmpty_full_iff hlen h).2 hB)
    simp [cobsEncode_full hblk hlen, hS, ih hB]

/-- Every frame is such a body of its input and the delimiter. -/
theorem exists_encode_eq (S : List Byte) :
    ∃ B, cobsEncode S = B ++ [0x00#8] ∧ CobsBody S B ∧ ¬ endsFullThenEmpty B := by
  obtain ⟨B, h, hB⟩ := exists_of_input S (List.forall_mem_nil _) (Nat.zero_le _)
  exact ⟨B, h.encode_eq hB, h, hB⟩

/-! ## An empty block at the end -/

/-- Bytes after a whole body begin a block of their own. -/
theorem codeBytes_append {S B : List Byte} (h : CobsBody S B) (T : List Byte) :
    codeBytes (B ++ T) 0 = codeBytes B 0 ++ codeBytes T 0 := by
  induction h with
  | last hblk hlen => rw [List.cons_append, codeBytes_blockCode hlen, codeBytes_last hlen, List.singleton_append]
  | zero hblk hlen h ih =>
    have hlen := Nat.le_succ_of_le hlen
    rw [List.cons_append, List.append_assoc, codeBytes_blockCode hlen, codeBytes_blockCode hlen, ih, List.cons_append]
  | full hblk hlen h ih =>
    rw [List.cons_append, List.append_assoc, codeBytes_full hlen, codeBytes_full hlen, ih, List.cons_append]

/-- The code byte a body ends with is that of its last block. -/
theorem suffix_cons_iff {S B : List Byte} (h : CobsBody S B) (c d : Byte) :
    [c] <:+ d :: codeBytes B 0 ↔ [c] <:+ codeBytes B 0 := by
  simp [List.suffix_cons_iff, h.codeBytes_ne_nil.symm]

/-- After a final full block an empty block spells nothing (40_frame_codec.md R91). -/
theorem append_empty {S B : List Byte} (h : CobsBody S B) (hB : [0xFF#8] <:+ codeBytes B 0) :
    CobsBody S (B ++ [0x01#8]) := by
  have hempty : CobsBody [] [0x01#8] := last (List.forall_mem_nil _) (Nat.zero_le _)
  induction h with
  | @last blk hblk hlen =>
    rw [codeBytes_last hlen] at hB
    have hcode : 0xFF#8 = blockCode blk := by simpa [List.suffix_cons_iff] using hB
    have hfull := blockCode_toNat hlen
    rw [← hcode] at hfull ⊢
    simpa using full hblk (Nat.succ.inj hfull).symm hempty
  | zero hblk hlen h ih =>
    rw [codeBytes_blockCode (Nat.le_succ_of_le hlen), h.suffix_cons_iff] at hB
    simpa using zero hblk hlen (ih hB)
  | full hblk hlen h ih =>
    rw [codeBytes_full hlen, h.suffix_cons_iff] at hB
    simpa using full hblk hlen (ih hB)

theorem endsFullThenEmpty_append_empty {S B : List Byte} (h : CobsBody S B)
    (hB : [0xFF#8] <:+ codeBytes B 0) : endsFullThenEmpty (B ++ [0x01#8]) := by
  obtain ⟨init, hinit⟩ := hB
  rw [endsFullThenEmpty, h.codeBytes_append, ← hinit]
  exact ⟨init, by simp [codeBytes]⟩

end CobsBody

end Sys2Proof.Machine
end

section
/-! PROOFS. The statements of 40_frame_codec.md. -/

open Sys2Proof Sys2Proof.Machine

/-- Settles O48: the frame's body spells the input, and the decoder gives what a body spells. -/
theorem byteRoundTrip : Obligations.ByteRoundTrip := by
  intro S hlen
  obtain ⟨B, hframe, h, -⟩ := CobsBody.exists_encode_eq S
  rw [hframe, CobsBody.decode_eq_ok_iff h.body_zeroFree]
  exact ⟨h, hlen⟩

/-- Settles O54, by the byte-level round trip of the command byte and the payload. -/
theorem packetRoundTrip : Obligations.PacketRoundTrip := by
  refine ⟨fun b p s hp => ?_, tagOf_codeOf⟩
  have hunit : cobsDecode (cobsEncode (b :: p)) = .ok (b :: p) := byteRoundTrip _ (Nat.succ_le_succ hp)
  exact ⟨_, cobsEncode (b :: p), exec_fcEncode_fits b hp s, by simp, exec_fcDecode_packet hunit⟩

/-- Settles O43: the body has no delimiter in it, and one code byte for every 254 bytes begun. -/
theorem encodeProperties : Obligations.EncodeProperties := by
  refine ⟨fun S hpos _ => ?_, rfl⟩
  obtain ⟨B, hframe, h, -⟩ := CobsBody.exists_encode_eq S
  obtain ⟨c, rest, rfl⟩ := h.eq_cons
  refine ⟨_, hframe, h.body_zeroFree, by simp, ?_⟩
  have hbound := (length_cobsBlocks_bounds [] S).2
  have hblocks : 1 ≤ ceilDiv S.length 254 := by unfold ceilDiv; omega
  simpa [cobsEncode, hblocks] using hbound

/-- Settles O44: a full run at the end of the input is the last block. -/
theorem encodeFullRunAtEnd : Obligations.EncodeFullRunAtEnd := by
  intro run hlen hrun
  have hfull : cobsEncode run = 0xFF#8 :: run ++ [0x00#8] := by simpa using cobsEncode_full hrun hlen []
  refine ⟨hfull, ?_⟩
  have hzero := cobsEncode_zero (List.forall_mem_nil _) (Nat.zero_le _) run
  rw [hfull] at hzero
  exact hzero

/-- Settles O45, by the length with an open block. -/
theorem frameLengthFormula : Obligations.FrameLengthFormula := by
  intro S
  simpa [cobsEncode] using length_cobsBlocks [] S (Nat.zero_le _)

/-- Settles O46: the loop's accumulator is put before what the encoder emits. -/
theorem encodeIsTheSpecLoop : Obligations.EncodeIsTheSpecLoop :=
  fun S => (encodeLoop_eq [] [] S).symm

/-- Settles O47: the loop at an offset is the walk of the rest of the body. -/
theorem decodeIsTheSpecLoop : Obligations.DecodeIsTheSpecLoop := by
  intro F
  unfold decodeByLoop
  rcases zeroFree_or_split F with hF | ⟨B, G, hB, rfl⟩
  · rw [cobsDecode_of_zeroFree hF, if_pos fun h => hF _ h rfl]
  · have hbody : (B ++ 0x00#8 :: G).takeWhile (· ≠ 0x00#8) = B := by
      rw [List.takeWhile_append_of_pos (by simpa using hB)]
      simp
    rw [cobsDecode_append hB, if_neg (show ¬ 0x00#8 ∉ B ++ 0x00#8 :: G by simp)]
    simp only [hbody, decodeLoop_eq hB B.length 0 [] (Nat.zero_add _).ge, List.drop_zero]

/-- Settles O49: with the empty block the body still spells the unit, but it is not the one the encoder gives. -/
theorem nonCanonicalTail : Obligations.NonCanonicalTail := by
  intro B D hB hfull hdecode
  obtain ⟨h, hcap⟩ := (CobsBody.decode_eq_ok_iff hB).1 hdecode
  have hlonger := h.append_empty hfull
  rw [← List.singleton_append (l := [0x00#8]), ← List.append_assoc]
  refine ⟨(CobsBody.decode_eq_ok_iff hlonger.body_zeroFree).2 ⟨hlonger, hcap⟩, fun S _ hS => ?_⟩
  obtain ⟨B', hframe, -, hB'⟩ := CobsBody.exists_encode_eq S
  rw [hframe, List.append_cancel_right_eq] at hS
  exact hB' (hS ▸ h.endsFullThenEmpty_append_empty hfull)

/-- Settles O50: such a body is the one that the encoder gives for what it spells. -/
theorem acceptedBodiesReencode : Obligations.AcceptedBodiesReencode := by
  intro B D hB hdecode htail
  obtain ⟨h, -⟩ := (CobsBody.decode_eq_ok_iff hB).1 hdecode
  exact h.encode_eq htail

/-- Settles O51. -/
theorem malformedFrames : Obligations.MalformedFrames := by
  refine ⟨fun F => cobsDecode_of_zeroFree, fun F => rfl, fun c B F hB hptr => ?_, fun B F hB => ?_,
    fun F D => length_cobsDecode_le⟩
  · rw [cobsDecode_body hB]
    simp [cobsWalk, show B.length < c.toNat - 1 by omega]
  · rw [cobsDecode_append hB, cobsDecode_append hB]

/-- Settles O52. -/
theorem fcEncodeResult : Obligations.FcEncodeResult := by
  refine fun cmd p s => ⟨fun hp => ?_, fun hp => exec_fcEncode_tooLarge cmd hp s⟩
  obtain ⟨hmin, hmax⟩ := length_cobsEncode_packet cmd hp
  exact ⟨_, rfl, hmin, hmax, exec_fcEncode_fits cmd hp s⟩

/-- Settles O53: one outcome of the operation for each of the decoder. -/
theorem fcDecodeResult : Obligations.FcDecodeResult :=
  fun _ s => ⟨fun _ _ h => exec_fcDecode_packet h s, fun h => exec_fcDecode_empty h s,
    fun _ h => exec_fcDecode_error h s⟩

/-- Settles O55, by the three cases of a byte's tag. -/
theorem tagMapping : Obligations.TagMapping := by
  refine ⟨tagOf_codeOf, fun b => ?_, fun b => ?_, rfl, rfl, rfl⟩
  · rcases tagOf_cases b with ⟨rfl, htag⟩ | ⟨rfl, htag⟩ | ⟨h1, h2, htag⟩
    · simp [htag, codeOf]
    · simp [htag, codeOf]
    · simp [htag, codeOf, h1, h2, eq_comm (a := 0x00#8)]
  · rcases tagOf_cases b with ⟨rfl, htag⟩ | ⟨rfl, htag⟩ | ⟨h1, h2, htag⟩
    · simp [htag]
    · simp [htag]
    · simp [htag, h1, h2]
end

section
/-! PROOFS. The ring buffer as a bounded queue: what RB_PUSH, RB_POP and RB_READ_EXACT do to the contents, and what they
answer in terms of the contents (41_ring_buffer.md R111 to R113, R118). -/

namespace Sys2Proof.Machine

/-! ## The contents -/

/-- The contents are the one sequence of size() bytes that lists the slots from the read cursor on. -/
theorem State.contents_eq {s : State} (h : s.Inv) {Q : List Byte} (hlen : Q.length = s.size)
    (hQ : ∀ j < s.size, Q[j]? = s.rb.read (s.slot (s.rbRd + j))) : s.contents = Q := by
  refine List.ext_getElem? fun j => ?_
  by_cases hj : j < s.size
  · rw [State.getElem?_contents h hj, hQ j hj]
  · have hge := Nat.not_lt.1 hj
    rw [List.getElem?_eq_none ((State.length_contents h).trans_le hge), List.getElem?_eq_none (hlen.trans_le hge)]

theorem State.contents_of_size_zero {s : State} (h : s.size = 0) : s.contents = [] := by
  simp [State.contents, h]

theorem State.size_pos_of_contents {s : State} (h : s.Inv) {b : Byte} {Q : List Byte} (hQ : s.contents = b :: Q) :
    1 ≤ s.size := by
  rw [← State.length_contents h, hQ]
  exact Nat.succ_pos _

theorem State.full_iff_length {s : State} (h : s.Inv) : s.full ↔ s.contents.length = s.rbN - 1 := by
  obtain ⟨-, hw, hr, -⟩ := id h
  rw [State.length_contents h, s.full_iff_size hw hr]

theorem State.empty_iff_contents {s : State} (h : s.Inv) : s.empty ↔ s.contents = [] := by
  obtain ⟨-, hw, hr, -⟩ := id h
  rw [s.empty_iff_size hw hr, ← State.length_contents h, List.length_eq_zero_iff]

/-- Moving the read cursor over `n` bytes of the contents removes the `n` oldest. -/
theorem State.contents_advanceRd {s : State} (h : s.Inv) {n : Nat} (hn : n ≤ s.size) :
    (s.advanceRd n).contents = s.contents.drop n := by
  have hsize := State.size_advanceRd h hn
  refine State.contents_eq (State.inv_advanceRd h hn) (by simp [hsize, State.length_contents h]) fun j hj => ?_
  rw [List.getElem?_drop, State.getElem?_contents h (by omega)]
  simp [State.slot, Nat.add_assoc]

/-- After the write of a push the slots from the read cursor up to and including the write cursor hold the contents and
then the byte pushed. -/
theorem State.read_write_eq_getElem? {s : State} (h : s.Inv) (v : Byte) {j : Nat} (hj : j ≤ s.size) :
    (s.rb.write s.rbWr v).read ((s.rbRd + j) % s.rbN) = (s.contents ++ [v])[j]? := by
  obtain ⟨-, hw, hr, -⟩ := id h
  have hlen := State.length_contents h
  have hwr := s.slot_rd_add_size hw hr
  rw [Memory.read_write]
  rcases Nat.lt_or_eq_of_le hj with hlt | rfl
  · have hne : (s.rbRd + j) % s.rbN ≠ s.rbWr := fun e =>
      hlt.ne (slot_injOn (hlt.trans (s.size_lt (by omega))) (s.size_lt (by omega)) (e.trans hwr.symm))
    rw [if_neg hne, List.getElem?_append_left (hlen ▸ hlt), State.getElem?_contents h hlt, State.slot]
  · rw [if_pos hwr, List.getElem?_append_right hlen.le, hlen, Nat.sub_self, List.getElem?_cons_zero]

/-- After a push on a full buffer the contents begin one place further on. -/
theorem State.slot_pushed (s : State) (v : Byte) (j : Nat) :
    (s.pushed v).slot ((s.pushed v).rbRd + j) = (s.rbRd + ((if s.full then 1 else 0) + j)) % s.rbN := by
  simp only [State.slot, State.pushed_rbRd, State.pushed_rbN]
  split
  · rw [Nat.mod_add_mod, Nat.add_assoc]
  · rw [Nat.zero_add]

/-- A push appends its byte, and on a full buffer the oldest byte is lost (41_ring_buffer.md R118). -/
theorem State.contents_pushed {s : State} (h : s.Inv) (v : Byte) :
    (s.pushed v).contents = (s.contents ++ [v]).drop (if s.full then 1 else 0) := by
  have hsize : (s.pushed v).size = s.size + 1 - if s.full then 1 else 0 := by
    rw [State.size_pushed h]
    split <;> rfl
  refine State.contents_eq (State.inv_pushed h v) ?_ fun j hj => ?_
  · rw [hsize, List.length_drop, List.length_append, State.length_contents h, List.length_singleton]
  · rw [List.getElem?_drop, State.pushed_rb, State.slot_pushed, State.read_write_eq_getElem? h v (by omega)]

/-- A full buffer has an oldest byte to lose. -/
theorem State.contents_ne_nil_of_full {s : State} (h : s.Inv) (hf : s.full) : s.contents ≠ [] := by
  obtain ⟨⟨hN, -⟩, -⟩ := id h
  have hlen := (State.full_iff_length h).1 hf
  exact List.ne_nil_of_length_pos (by omega)

/-! ## The answers, in terms of the contents -/

theorem exec_rbPop_nil {s : State} (h : s.Inv) (hQ : s.contents = []) :
    exec .rbPop s = .next (s.answer ⟨.noData, .invalid, 0#8, 0#16, []⟩) :=
  execRbPop_empty ((State.empty_iff_contents h).2 hQ)

theorem exec_rbPop_cons {s : State} (h : s.Inv) {b : Byte} {Q : List Byte} (hQ : s.contents = b :: Q) :
    exec .rbPop s = .next ((s.advanceRd 1).answer ⟨.ok, .invalid, b, 0#16, []⟩) := by
  obtain ⟨-, -, hr, -⟩ := id h
  have hread := State.getElem?_contents h (State.size_pos_of_contents h hQ)
  rw [hQ, List.getElem?_cons_zero, Nat.add_zero, State.slot, Nat.mod_eq_of_lt hr] at hread
  have hne : ¬ s.empty := by simp [State.empty_iff_contents h, hQ]
  exact execRbPop_eq hne (State.readSlot_ok.2 ⟨hr, hread.symm⟩)

theorem exec_rbReadExact_short {s : State} {n : Half} (h : s.size < n.toNat) :
    exec (.rbReadExact n) s = .next (s.answer ⟨.noData, .invalid, 0#8, 0#16, []⟩) :=
  execRbReadExact_short h

theorem exec_rbReadExact_take {s : State} (h : s.Inv) {n : Half} (hn : n.toNat ≤ s.size) :
    exec (.rbReadExact n) s =
      .next ((s.advanceRd n.toNat).answer ⟨.ok, .invalid, 0#8, n, s.contents.take n.toNat⟩) :=
  execRbReadExact_eq hn (State.readSlots_contents h hn)

/-- An operation that writes no block state reads of it at most the size, RB_N and the drop counter. -/
theorem StatelessResult.exec_eq {s t : State} {i : Instr} {r : Response} (h : StatelessResult s i r)
    (hsize : t.size = s.size) (hn : t.rbN = s.rbN) (hdrops : t.rbDrops = s.rbDrops) :
    exec i t = .next (t.answer r) := by
  cases h with
  | size => rw [← hsize]; rfl
  | remaining => rw [State.remaining, ← hsize, ← hn]; rfl
  | drops => rw [← hdrops]; rfl
  | encode cmd p hp => exact exec_fcEncode_fits cmd hp t
  | encodeTooLarge cmd p hp => exact exec_fcEncode_tooLarge cmd hp t
  | decode F c p hF => exact exec_fcDecode_packet hF t
  | decodeEmpty F hF => exact exec_fcDecode_empty hF t
  | decodeError F e hF => exact exec_fcDecode_error hF t
  | chunk rows bm ps hps => exact exec_bcChunk_ok hps t
  | chunkError rows bm e he => exact exec_bcChunk_error he t
  | unchunk P u hu => exact exec_bcUnchunk_ok hu t
  | unchunkError P e he => exact exec_bcUnchunk_error he t

end Sys2Proof.Machine
end

section
/-! PROOFS. Runs of operations: from states with the same view, of pushes and of pops; and the drop counter along a run
(41_ring_buffer.md R113, R119 to R121). -/

namespace Sys2Proof.Machine

/-- A run begins with its first operation's response. -/
theorem runOps_cons {i : Instr} {is : List Instr} {s u t : State} {r : Response} {rs : List Response}
    (h : exec i s = .next (u.answer r)) (hrun : runOps is (u.answer r) = some (t, rs)) :
    runOps (i :: is) s = some (t, r :: rs) := by
  simp [runOps, h, hrun]

/-! ## States with the same view (41_ring_buffer.md R120) -/

theorem State.sameView_answer {s t : State} {r q : Response} : (s.answer r).sameView (t.answer q) ↔ s.sameView t := by
  simp [State.sameView]

theorem State.size_of_sameView {s t : State} (hs : s.Inv) (ht : t.Inv) (h : s.sameView t) : t.size = s.size := by
  obtain ⟨-, hQ, -⟩ := h
  rw [← State.length_contents ht, hQ, State.length_contents hs]

theorem State.full_of_sameView {s t : State} (hs : s.Inv) (ht : t.Inv) (h : s.sameView t) : t.full ↔ s.full := by
  obtain ⟨hn, hQ, -⟩ := h
  rw [State.full_iff_length ht, hQ, hn, State.full_iff_length hs]

theorem State.sameView_pushed {s t : State} (hs : s.Inv) (ht : t.Inv) (h : s.sameView t) (v : Byte) :
    (s.pushed v).sameView (t.pushed v) := by
  obtain ⟨hn, hQ, hdrops⟩ := id h
  have hfull := State.full_of_sameView hs ht h
  refine ⟨by simp [hn], ?_, ?_⟩
  · simp only [State.contents_pushed hs, State.contents_pushed ht, hQ, hfull]
  · simp only [State.pushed_rbDrops, hdrops, hfull]

theorem State.sameView_advanceRd {s t : State} (hs : s.Inv) (ht : t.Inv) (h : s.sameView t) {n : Nat}
    (hle : n ≤ s.size) : (s.advanceRd n).sameView (t.advanceRd n) := by
  obtain ⟨hn, hQ, hdrops⟩ := id h
  have hle' : n ≤ t.size := hle.trans_eq (State.size_of_sameView hs ht h).symm
  exact ⟨hn, by rw [State.contents_advanceRd hs hle, State.contents_advanceRd ht hle', hQ], hdrops⟩

/-- From states with the same view an operation gives one answer, and leaves states with the same view. -/
theorem exec_sameView {s t : State} (hs : s.Inv) (ht : t.Inv) (h : s.sameView t) (i : Instr) :
    ∃ (u v : State) (r : Response),
      exec i s = .next (u.answer r) ∧ exec i t = .next (v.answer r) ∧ u.sameView v := by
  obtain ⟨hn, hQ, hdrops⟩ := id h
  have hsize := State.size_of_sameView hs ht h
  by_cases hi : isStateless i = true
  · obtain ⟨r, hr, -⟩ := exec_statelessResult hi s
    exact ⟨s, t, r, hr.exec_eq rfl rfl rfl, hr.exec_eq hsize hn hdrops, h⟩
  · obtain ⟨v, rfl⟩ | rfl | ⟨n, rfl⟩ := stateful_cases hi
    · obtain ⟨-, hw, -⟩ := id hs
      obtain ⟨-, hw', -⟩ := id ht
      refine ⟨_, _, _, exec_rbPush_pushed v hw, ?_, State.sameView_pushed hs ht h v⟩
      simp only [exec_rbPush_pushed v hw', State.full_of_sameView hs ht h]
    · cases hc : s.contents with
      | nil => exact ⟨s, t, _, exec_rbPop_nil hs hc, exec_rbPop_nil ht (hQ.trans hc), h⟩
      | cons b Q =>
        exact ⟨_, _, _, exec_rbPop_cons hs hc, exec_rbPop_cons ht (hQ.trans hc),
          State.sameView_advanceRd hs ht h (State.size_pos_of_contents hs hc)⟩
    · rcases Nat.lt_or_ge s.size n.toNat with hlt | hle
      · exact ⟨s, t, _, exec_rbReadExact_short hlt, exec_rbReadExact_short (hsize.trans_lt hlt), h⟩
      · refine ⟨_, _, _, exec_rbReadExact_take hs hle, ?_, State.sameView_advanceRd hs ht h hle⟩
        rw [exec_rbReadExact_take ht (hle.trans_eq hsize.symm), hQ]

/-- Operation by operation, states with the same view give the same responses and keep the same view. -/
theorem runOps_sameView (is : List Instr) {s t : State} (hs : s.Inv) (ht : t.Inv) (h : s.sameView t) :
    ∃ s' t' rs, runOps is s = some (s', rs) ∧ runOps is t = some (t', rs) ∧ s'.sameView t' := by
  induction is generalizing s t with
  | nil => exact ⟨s, t, [], rfl, rfl, h⟩
  | cons i is ih =>
    obtain ⟨u, v, r, hu, hv, huv⟩ := exec_sameView hs ht h i
    obtain ⟨s', t', rs, hs', ht', hview⟩ := ih (exec_inv hs hu) (exec_inv ht hv) (State.sameView_answer.2 huv)
    exact ⟨s', t', r :: rs, runOps_cons hu hs', runOps_cons hv ht', hview⟩

theorem State.size_of_cursors_eq {s : State} (h : s.rbWr = s.rbRd) : s.size = 0 := by
  simp [State.size, h]

/-- The cursors of a block just reset may stand at any slot. -/
theorem State.inv_resetWith_at {n c : Nat} (hn : Config.legalSlots n) (hc : c < n) :
    State.Inv { State.resetWith n with rbWr := c, rbRd := c } := by
  refine ⟨hn, hc, hc, Memory.wf_nil, nofun, fun j hj => ?_⟩
  rw [State.size_of_cursors_eq rfl] at hj
  omega

theorem State.sameView_resetWith_at (n c : Nat) :
    (State.resetWith n).sameView { State.resetWith n with rbWr := c, rbRd := c } := by
  refine ⟨rfl, ?_, rfl⟩
  rw [State.contents_of_size_zero (State.size_of_cursors_eq rfl), State.contents_of_size_zero (State.size_resetWith n)]

/-! ## The drop counter (41_ring_buffer.md R121) -/

/-- Bit 0 of RB_PUSH's `aux8` says whether a byte was dropped (30_encoding.md R67). -/
@[simp] theorem isDrop_rbPush (v : Byte) (dropped : Bool) :
    isDrop (.rbPush v) ⟨.ok, .invalid, droppedBit dropped, 0#16, []⟩ = dropped := by
  cases dropped <;> rfl

theorem isDrop_of_ne_rbPush {i : Instr} (h : ∀ v, i ≠ .rbPush v) (r : Response) : isDrop i r = false := by
  cases i with
  | rbPush v => exact absurd rfl (h v)
  | _ => rfl

@[simp] theorem dropCount_nil (rs : List Response) : dropCount [] rs = 0 := rfl

@[simp] theorem dropCount_cons (i : Instr) (is : List Instr) (r : Response) (rs : List Response) :
    dropCount (i :: is) (r :: rs) = (if isDrop i r then 1 else 0) + dropCount is rs := rfl

theorem State.toNat_rbDrops_pushed (s : State) (v : Byte) :
    (s.pushed v).rbDrops.toNat = if s.full then min (s.rbDrops.toNat + 1) 65535 else s.rbDrops.toNat := by
  rw [State.pushed_rbDrops]
  split
  · exact len16_ofNat (by omega)
  · rfl

/-- The counter counts an operation that was a push answered with DROPPED, and no other (10_state.md R23). -/
theorem ExecResult.rbDrops_eq {s u : State} {i : Instr} {r : Response} (h : ExecResult s i u r) :
    u.rbDrops.toNat = min 65535 (s.rbDrops.toNat + if isDrop i r then 1 else 0) := by
  have hlt := s.rbDrops.isLt
  by_cases hi : ∃ v, i = .rbPush v
  · obtain ⟨v, rfl⟩ := hi
    cases h with
    | push =>
      rw [State.toNat_rbDrops_pushed, isDrop_rbPush]
      by_cases hf : s.full
      · rw [if_pos hf, if_pos (decide_eq_true hf), Nat.min_comm]
      · rw [if_neg hf, if_neg (by simpa using hf)]
        omega
    | stateless _ _ hi => cases hi
  · have hne (v : Byte) : i ≠ .rbPush v := fun e => hi ⟨v, e⟩
    obtain ⟨-, -, hdrops⟩ := h.frame hne
    rw [hdrops, isDrop_of_ne_rbPush hne, if_neg Bool.false_ne_true]
    omega

theorem runOps_rbDrops (is : List Instr) {s : State} (h : s.Inv) :
    ∃ t rs, runOps is s = some (t, rs) ∧ t.rbDrops.toNat = min 65535 (s.rbDrops.toNat + dropCount is rs) := by
  induction is generalizing s with
  | nil =>
    have hlt := s.rbDrops.isLt
    exact ⟨s, [], rfl, by rw [dropCount_nil]; omega⟩
  | cons i is ih =>
    obtain ⟨w, hw⟩ := exec_answers h i
    obtain ⟨u, r, hu, rfl⟩ := exec_result hw
    obtain ⟨t, rs, hrun, ht⟩ := ih (exec_inv h hw)
    refine ⟨t, r :: rs, runOps_cons hw hrun, ?_⟩
    rw [ht, State.answer_rbDrops, hu.rbDrops_eq, dropCount_cons]
    omega

/-! ## Runs of pushes (41_ring_buffer.md R119) -/

/-- The contents are no longer than the capacity RB_N - 1, so none of them is lost before a push. -/
theorem State.size_sub_capacity {s : State} (h : s.Inv) : s.size - (s.rbN - 1) = 0 := by
  obtain ⟨⟨hN, -⟩, -⟩ := id h
  have := s.size_lt (by omega)
  omega

/-- What one push loses and what `k` pushes after it lose add up to what `k + 1` pushes lose. -/
theorem State.lost_pushed {s : State} (h : s.Inv) (v : Byte) (k : Nat) :
    (if s.full then 1 else 0) + ((s.pushed v).size + k - (s.rbN - 1)) = s.size + (k + 1) - (s.rbN - 1) := by
  obtain ⟨⟨hN, -⟩, hw, hr, -⟩ := id h
  have hfull := s.full_iff_size hw hr
  have hlt := s.size_lt (by omega)
  rw [State.size_pushed h]
  split <;> omega

/-- A run of pushes loses the oldest of all the bytes, as many as do not fit, and says so once for each. -/
theorem runOps_rbPushs (vs : List Byte) {s : State} (h : s.Inv) :
    ∃ t rs, runOps (rbPushs vs) s = some (t, rs) ∧ t.Inv ∧
      t.contents = (s.contents ++ vs).drop (s.size + vs.length - (s.rbN - 1)) ∧
      dropCount (rbPushs vs) rs = s.size + vs.length - (s.rbN - 1) := by
  induction vs generalizing s with
  | nil => exact ⟨s, [], rfl, h, by simp [State.size_sub_capacity h], by simp [rbPushs, State.size_sub_capacity h]⟩
  | cons v vs ih =>
    obtain ⟨-, hw, -⟩ := id h
    have hpush := exec_rbPush_pushed v hw
    obtain ⟨t, rs, hrun, ht, hQ, hcount⟩ := ih (exec_inv h hpush)
    rw [State.answer_size, State.answer_rbN, State.pushed_rbN] at hQ hcount
    rw [State.answer_contents, State.contents_pushed h] at hQ
    have hone : (if s.full then 1 else 0) ≤ (s.contents ++ [v]).length := by
      rw [List.length_append, List.length_singleton]
      split <;> omega
    refine ⟨t, _, runOps_cons hpush hrun, ht, ?_, ?_⟩
    · rw [hQ, ← List.drop_append_of_le_length hone, List.drop_drop, State.lost_pushed h, List.append_assoc]
      rfl
    · rw [rbPushs, List.map_cons, dropCount_cons, isDrop_rbPush, ← rbPushs, hcount, List.length_cons,
        ← State.lost_pushed h v]
      simp only [decide_eq_true_eq]

/-! ## Runs of pops (41_ring_buffer.md R113) -/

/-- `n` pops move the read cursor by `n` and give the `n` oldest bytes. -/
theorem runOps_rbPops (n : Nat) {s : State} (h : s.Inv) (hn : n ≤ s.size) :
    ∃ u rs, runOps (List.replicate n .rbPop) s = some (u, rs) ∧ (s.advanceRd n).sameBlock u ∧
      rs.map (·.aux8) = s.contents.take n ∧ ∀ r ∈ rs, r.status = .ok := by
  induction n generalizing s with
  | zero =>
    obtain ⟨-, -, hr, -⟩ := id h
    exact ⟨s, [], rfl, by simp [State.sameBlock, Nat.mod_eq_of_lt hr], rfl, List.forall_mem_nil _⟩
  | succ n ih =>
    cases hc : s.contents with
    | nil =>
      rw [← State.length_contents h, hc] at hn
      cases hn
    | cons b Q =>
      have hpop := exec_rbPop_cons h hc
      have hsize := State.size_advanceRd h (n := 1) (by omega)
      have hrest := State.contents_advanceRd h (n := 1) (by omega)
      obtain ⟨u, rs, hrun, hblock, hbytes, hok⟩ := ih (exec_inv h hpop) (by rw [State.answer_size]; omega)
      refine ⟨u, _, runOps_cons hpop hrun, ?_, ?_, ?_⟩
      · simpa [State.sameBlock, Nat.add_assoc, Nat.add_comm 1] using hblock
      · rw [List.map_cons, hbytes, State.answer_contents, hrest, hc]; rfl
      · simpa using hok

end Sys2Proof.Machine
end

section
/-! PROOFS. The statements of 41_ring_buffer.md. -/

open Sys2Proof Sys2Proof.Machine

/-- Settles O33, by induction over the operations; a block just reset has one view wherever its cursors are. -/
theorem equalViewsGiveEqualAnswers : Obligations.EqualViewsGiveEqualAnswers := by
  refine ⟨fun is s t => runOps_sameView is, fun is n c hn hc => ?_⟩
  obtain ⟨s', t', rs, hs, ht, -⟩ :=
    runOps_sameView is (State.inv_resetWith hn) (State.inv_resetWith_at hn hc) (State.sameView_resetWith_at n c)
  exact ⟨s', t', rs, hs, ht⟩

/-- Settles O25: the two clauses are the two cases of `State.pushed`. -/
theorem pushEffect : Obligations.PushEffect := by
  intro s v h
  obtain ⟨-, hw, -⟩ := id h
  have hexec := exec_rbPush_pushed v hw
  refine ⟨_, hexec, by simp, fun x hx => by simp [hx], by simp, by simp, exec_sameButResponse hexec,
    fun hfull => ?_, fun hfull => ?_⟩
  · have hf : s.full := hfull
    refine ⟨?_, ?_, ?_⟩
    · rw [State.answer_rbRd, State.pushed_rbRd, if_pos hf]
    · rw [State.answer_rbDrops, State.toNat_rbDrops_pushed, if_pos hf]
    · rw [State.answer_response, decide_eq_true hf, droppedBit, if_pos rfl]
  · have hf : ¬ s.full := hfull
    refine ⟨?_, ?_, ?_⟩
    · rw [State.answer_rbRd, State.pushed_rbRd, if_neg hf]
    · rw [State.answer_rbDrops, State.pushed_rbDrops, if_neg hf]
    · rw [State.answer_response, decide_eq_false hf, droppedBit, if_neg Bool.false_ne_true]

/-- Settles O26: a buffer that is not empty has a byte to read. -/
theorem popEffect : Obligations.PopEffect := by
  refine fun s h => ⟨fun he => ?_, fun hne => ?_⟩
  · have hexec : exec .rbPop s = _ := execRbPop_empty he
    exact ⟨_, hexec, s.sameBlock_answer _, exec_sameButResponse hexec, State.answer_response _ _⟩
  · obtain ⟨v, hv⟩ := State.exists_readSlot_rbRd h hne
    have hexec : exec .rbPop s = _ := execRbPop_eq hne hv
    exact ⟨_, v, hexec, (State.readSlot_ok.1 hv).2, by simp, by simp, by simp, by simp, by simp,
      exec_sameButResponse hexec, State.answer_response _ _⟩

/-- Settles O27: the bytes answered are the oldest of the contents. -/
theorem readExactEffect : Obligations.ReadExactEffect := by
  refine fun s n h => ⟨fun hlt => ?_, fun hle => ?_⟩
  · have hexec := exec_rbReadExact_short hlt
    exact ⟨_, hexec, s.sameBlock_answer _, exec_sameButResponse hexec, State.answer_response _ _⟩
  · have hexec := exec_rbReadExact_take h hle
    refine ⟨_, s.contents.take n.toNat, hexec, by simp [State.length_contents h, hle], fun j hj => ?_, by simp,
      by simp, by simp, by simp, by simp, exec_sameButResponse hexec, State.answer_response _ _⟩
    rw [List.getElem?_take_of_lt hj, State.getElem?_contents h (hj.trans_le hle), State.slot]

/-- Settles O28: both numbers fit `len16`, RB_N being at most 65536. -/
theorem sizeAndRemainingAnswers : Obligations.SizeAndRemainingAnswers := by
  rintro s ⟨⟨hN, hN'⟩, -⟩
  have hlt := s.size_lt (by omega)
  refine ⟨⟨_, _, StatelessResult.size.exec_eq rfl rfl rfl, s.sameBlock_answer _, s.answer_sameButResponse _,
      State.answer_response _ _, ?_⟩,
    ⟨_, _, StatelessResult.remaining.exec_eq rfl rfl rfl, s.sameBlock_answer _, s.answer_sameButResponse _,
      State.answer_response _ _, ?_⟩⟩
  · rw [len16_ofNat (by omega)]
    exact Int.toNat_of_nonneg (Int.emod_nonneg _ (by omega))
  · have hle : s.remaining ≤ s.rbN - 1 := by unfold State.remaining; omega
    exact len16_ofNat (by omega)

/-- Settles O30: `n` pops move the read cursor where RB_READ_EXACT does, over the same bytes. -/
theorem readExactEqualsPops : Obligations.ReadExactEqualsPops := by
  intro s n h hn
  obtain ⟨u, rs, hrun, hblock, hbytes, hok⟩ := runOps_rbPops n.toNat h hn
  refine ⟨_, u, rs, _, exec_rbReadExact_take h hn, hrun, ?_, State.answer_response _ _, hbytes.symm, hok⟩
  simpa [State.sameBlock] using hblock

/-- Settles O31, by what a push and a move of the read cursor do to the contents. -/
theorem queueAbstraction : Obligations.QueueAbstraction := by
  refine fun s h => ⟨fun v => ?_, fun b Q hQ => ?_, fun n hn => ?_⟩
  · obtain ⟨-, hw, -⟩ := id h
    refine ⟨_, exec_rbPush_pushed v hw, ?_⟩
    rw [State.answer_contents, State.contents_pushed h]
    have hlen := State.full_iff_length h
    by_cases hf : s.full
    · rw [if_pos hf, if_pos (hlen.1 hf), List.drop_one,
        List.tail_append_of_ne_nil (State.contents_ne_nil_of_full h hf)]
    · rw [if_neg hf, if_neg (mt hlen.2 hf), List.drop_zero]
  · refine ⟨_, exec_rbPop_cons h hQ, State.answer_response _ _, ?_⟩
    rw [State.answer_contents, State.contents_advanceRd h (State.size_pos_of_contents h hQ), hQ, List.drop_one,
      List.tail_cons]
  · rw [State.length_contents h] at hn
    refine ⟨_, exec_rbReadExact_take h hn, State.answer_response _ _, ?_⟩
    rw [State.answer_contents, State.contents_advanceRd h hn]

/-- Settles O32, by the law for a run of pushes; from an empty buffer RB_N bytes are one too many. -/
theorem overwriteLaw : Obligations.OverwriteLaw := by
  intro s vs h
  obtain ⟨⟨hN, -⟩, -⟩ := id h
  obtain ⟨t, rs, hrun, ⟨⟨hN', -⟩, -⟩, hQ, hcount⟩ := runOps_rbPushs vs h
  refine ⟨t, rs, hrun, hQ, hcount, Nat.le_pred_of_lt (t.size_lt (by omega)), fun hempty hlen => ?_⟩
  have hone : s.size + vs.length - (s.rbN - 1) = 1 := by omega
  rw [hcount, hQ, hone, State.contents_of_size_zero hempty]
  exact ⟨rfl, List.drop_one⟩

/-- Settles O34, by induction over the operations. -/
theorem dropCounterCountsDroppedPushes : Obligations.DropCounterCountsDroppedPushes := by
  intro n is hn
  obtain ⟨t, rs, hrun, ht⟩ := runOps_rbDrops is (State.inv_resetWith hn)
  exact ⟨t, rs, hrun, by simpa [State.resetWith] using ht⟩

/-- Settles O29: the operation writes no block state. -/
theorem dropsAnswer : Obligations.DropsAnswer :=
  fun s => ⟨_, StatelessResult.drops.exec_eq rfl rfl rfl, s.sameBlock_answer _, s.answer_sameButResponse _,
    State.answer_response _ _⟩
end

section
/-! PROOFS. What BulkPayload, the split into packets and Unchunk give (42_chunker.md R131 to R138). -/

namespace Sys2Proof.Machine

/-! ## The bulk payload (42_chunker.md R131) -/

/-- A legal row count fits the count byte. -/
theorem rowCount_toNat {k : Nat} (h : k ≤ 240) : (BitVec.ofNat 8 k).toNat = k := by
  rw [BitVec.toNat_ofNat, Nat.mod_eq_of_lt (by omega)]

theorem slice_middle (A B C : List Byte) {a b : Nat} (ha : A.length = a) (hb : a + B.length = b) :
    slice (A ++ B ++ C) a b = B := by
  rw [slice, List.append_assoc, List.drop_left' ha, List.take_left' (by omega)]

theorem slice_bulkPayload_rows (bm rows : List Byte) : slice (bulkPayload bm rows) 1 (1 + rows.length) = rows :=
  slice_middle [_] rows _ rfl rfl

/-- The rows before entry `i` of the list take 50·i bytes, and then comes the row entry `i` names. -/
theorem slice_bulkPayload_row {rows bm : List Byte} (hbm : bm.length = 12000) (hlegal : ∀ r ∈ rows, r.toNat < 240)
    {i : Nat} {r : Byte} (h : rows[i]? = some r) :
    slice (bulkPayload bm rows) (1 + rows.length + 50 * i) (1 + rows.length + 50 * i + 50) = bitmapRow bm r := by
  obtain ⟨hi, rfl⟩ := List.getElem?_eq_some_iff.1 h
  have hbefore : ((rows.take i).flatMap (bitmapRow bm)).length = 50 * i := by
    rw [rows_length hbm fun r hr => hlegal r (List.mem_of_mem_take hr), List.length_take_of_le hi.le]
  have hrow := bitmapRow_length hbm (hlegal _ (List.getElem_mem hi))
  have hsplit : bulkPayload bm rows =
      (BitVec.ofNat 8 rows.length :: rows ++ (rows.take i).flatMap (bitmapRow bm)) ++ bitmapRow bm rows[i] ++
        (rows.drop (i + 1)).flatMap (bitmapRow bm) := by
    rw [List.append_assoc _ (bitmapRow bm _), ← List.flatMap_cons, List.getElem_cons_drop, List.append_assoc,
      ← List.flatMap_append, List.take_append_drop, bulkPayload]
  rw [hsplit]
  refine slice_middle _ _ _ ?_ (by rw [hrow])
  rw [List.length_append, List.length_cons, hbefore]
  omega

/-! ## The packets (42_chunker.md R132) -/

theorem length_packetPayload (P : List Byte) (j : Nat) : (packetPayload P j).length = min 254 (P.length - 254 * j) := by
  rw [packetPayload_eq_take_drop, List.length_take, List.length_drop]

theorem getElem?_packetPayloads {P : List Byte} {k j : Nat} {p : List Byte} :
    (packetPayloads P k)[j]? = some p ↔ j < k ∧ packetPayload P j = p := by
  simp [packetPayloads, List.getElem?_eq_some_iff]

/-- Packet `j` of an update begins inside the bulk payload. -/
theorem lt_bulkLength_of_lt_packetCount {k j : Nat} (h : j < packetCount k) : 254 * j < bulkLength k := by
  simp only [packetCount, ceilDiv, Config.maxPayload] at h
  omega

/-- The length of packet `j` of an update: 1 to 254 bytes, 254 before the last packet. -/
theorem length_packet_of_update {P : List Byte} {k j : Nat} (hP : P.length = bulkLength k) (h : j < packetCount k) :
    1 ≤ (packetPayload P j).length ∧ (packetPayload P j).length ≤ 254 ∧
      (j + 1 < packetCount k → (packetPayload P j).length = 254) ∧
      (j + 1 = packetCount k → (packetPayload P j).length = lastPayloadLength k) := by
  have hbegin := lt_bulkLength_of_lt_packetCount h
  have hend : bulkLength k ≤ 254 * packetCount k := ceilDiv_mul_ge _
  have hnext : j + 1 < packetCount k → 254 * (j + 1) < bulkLength k := lt_bulkLength_of_lt_packetCount
  simp only [length_packetPayload, hP, lastPayloadLength, Config.maxPayload]
  refine ⟨by omega, by omega, fun hmore => ?_, fun hlast => ?_⟩
  · have := hnext hmore
    omega
  · rw [← hlast] at hend ⊢
    omega

/-- The payloads of an update's packets are its bulk payload (42_chunker.md R135). -/
theorem flatten_packetPayloads_bulkPayload {rows bm : List Byte} (hbm : bm.length = 12000)
    (hlegal : ∀ r ∈ rows, r.toNat < 240) :
    (packetPayloads (bulkPayload bm rows) (packetCount rows.length)).flatten = bulkPayload bm rows := by
  have hflat := flatten_packetPayloads_ceilDiv (bulkPayload bm rows)
  rwa [length_bulkPayload hbm hlegal] at hflat

/-! ## The two functions, outcome by outcome (42_chunker.md R133, R134, R136) -/

theorem chunk_of_legal {rows : List Byte} (hcount : rows.length ≤ 240) (hlegal : ∀ r ∈ rows, r.toNat < 240)
    (bm : List Byte) : chunk rows bm = .ok (packetPayloads (bulkPayload bm rows) (packetCount rows.length)) := by
  have hnot : ¬ Config.rRows < rows.length := Nat.not_lt.2 hcount
  rw [chunk, if_neg hnot, no_illegal_row.2 hlegal, if_neg Bool.false_ne_true]

theorem chunk_of_count {rows : List Byte} (hcount : 240 < rows.length) (bm : List Byte) :
    chunk rows bm = .error .badRowCount :=
  if_pos hcount

theorem chunk_of_index {rows : List Byte} (hcount : rows.length ≤ 240) (hillegal : ∃ r ∈ rows, 240 ≤ r.toNat)
    (bm : List Byte) : chunk rows bm = .error .badRowIndex := by
  have hnot : ¬ Config.rRows < rows.length := Nat.not_lt.2 hcount
  rw [chunk, if_neg hnot, any_illegal_row.2 hillegal, if_pos rfl]

/-- Unchunk of a count byte and what follows it, without slices. -/
theorem unchunk_cons (N : Byte) (P : List Byte) :
    unchunk (N :: P) =
      if 240 < N.toNat then .error .badRowCount
      else if P.length ≠ 51 * N.toNat then .error .badLength
      else if (P.take N.toNat).any (fun r => !legalRow r) then .error .badRowIndex
      else .ok ⟨N, P.take N.toNat, P.drop N.toNat⟩ := by
  have hlen : (N :: P).length ≠ bulkLength N.toNat ↔ P.length ≠ 51 * N.toNat := by
    simp only [bulkLength, List.length_cons]
    omega
  have hindices : slice (N :: P) 1 (1 + N.toNat) = P.take N.toNat := by simp [slice]
  simp only [unchunk, Config.rRows, hlen, hindices]
  by_cases hP : P.length = 51 * N.toNat
  · have hdata : slice (N :: P) (1 + N.toNat) (1 + 51 * N.toNat) = P.drop N.toNat := by
      rw [slice, Nat.add_comm 1 N.toNat, List.drop_succ_cons, List.take_of_length_le]
      rw [List.length_drop]
      omega
    rw [hdata]
  · simp only [ne_eq, hP, not_false_eq_true, if_true]

theorem unchunk_of_count {N : Byte} (hN : 240 < N.toNat) (P : List Byte) :
    unchunk (N :: P) = .error .badRowCount := by
  rw [unchunk_cons, if_pos hN]

theorem unchunk_of_length {N : Byte} {P : List Byte} (hN : N.toNat ≤ 240) (hP : P.length ≠ 51 * N.toNat) :
    unchunk (N :: P) = .error .badLength := by
  rw [unchunk_cons, if_neg (Nat.not_lt.2 hN), if_pos hP]

theorem unchunk_of_index {N : Byte} {P : List Byte} (hN : N.toNat ≤ 240) (hP : P.length = 51 * N.toNat)
    (hillegal : ∃ r ∈ P.take N.toNat, 240 ≤ r.toNat) : unchunk (N :: P) = .error .badRowIndex := by
  rw [unchunk_cons, if_neg (Nat.not_lt.2 hN), if_neg (not_not_intro hP), any_illegal_row.2 hillegal, if_pos rfl]

theorem unchunk_of_legal {N : Byte} {P : List Byte} (hN : N.toNat ≤ 240) (hP : P.length = 51 * N.toNat)
    (hlegal : ∀ r ∈ P.take N.toNat, r.toNat < 240) :
    unchunk (N :: P) = .ok ⟨N, P.take N.toNat, P.drop N.toNat⟩ := by
  rw [unchunk_cons, if_neg (Nat.not_lt.2 hN), if_neg (not_not_intro hP), no_illegal_row.2 hlegal,
    if_neg Bool.false_ne_true]

/-- Unchunk of an update's bulk payload gives the update back (42_chunker.md R138). -/
theorem unchunk_bulkPayload {rows bm : List Byte} (h : legalUpdate rows bm) :
    unchunk (bulkPayload bm rows) =
      .ok ⟨BitVec.ofNat 8 rows.length, rows, rows.flatMap (bitmapRow bm)⟩ := by
  obtain ⟨hcount, hlegal, hbm⟩ := h
  have hN := rowCount_toNat hcount
  have hindices : (rows ++ rows.flatMap (bitmapRow bm)).take rows.length = rows := List.take_left
  have hlen : (rows ++ rows.flatMap (bitmapRow bm)).length = 51 * rows.length := by
    rw [List.length_append, rows_length hbm hlegal]
    omega
  rw [bulkPayload, List.cons_append, unchunk_of_legal (by rwa [hN]) (by rw [hN, hlen])
    (by rwa [hN, hindices]), hN, hindices, List.drop_left]

end Sys2Proof.Machine
end

section
/-! PROOFS. The statements of 42_chunker.md. -/

open Sys2Proof Sys2Proof.Machine

/-- Settles O60: the packets together are the bulk payload, and Unchunk of it gives its parts. -/
theorem chunkUnchunkRoundTrip : Obligations.ChunkUnchunkRoundTrip := by
  intro rows bm s h
  obtain ⟨hcount, hlegal, hbm⟩ := id h
  refine ⟨_, _, exec_bcChunk_ok (chunk_of_legal hcount hlegal bm) s, State.answer_response _ _, fun u => ?_⟩
  have hN := rowCount_toNat hcount
  rw [flatten_packetPayloads_bulkPayload hbm hlegal, exec_bcUnchunk_ok (unchunk_bulkPayload h), hN]
  rfl

/-- Settles O57: each packet's length by its place, and a frame for each, none being above 254 bytes. -/
theorem chunkCompleteness : Obligations.ChunkCompleteness := by
  rintro rows bm s ⟨hcount, hlegal, hbm⟩
  have hlen := length_packetPayloads (bulkPayload bm rows) (packetCount rows.length)
  have hpacket (j : Nat) := length_packet_of_update (j := j) (length_bulkPayload hbm hlegal)
  have hsize : ∀ p ∈ packetPayloads (bulkPayload bm rows) (packetCount rows.length),
      1 ≤ p.length ∧ p.length ≤ 254 := by
    intro p hp
    obtain ⟨j, hj⟩ := List.mem_iff_getElem?.1 hp
    obtain ⟨hlt, rfl⟩ := getElem?_packetPayloads.1 hj
    obtain ⟨hpos, hle, -⟩ := hpacket j hlt
    exact ⟨hpos, hle⟩
  refine ⟨_, _, exec_bcChunk_ok (chunk_of_legal hcount hlegal bm) s, State.answer_response _ _, hlen,
    flatten_packetPayloads_bulkPayload hbm hlegal, hsize, fun j p hp hmore => ?_, fun p hp => ?_, fun p hp u => ?_⟩
  · obtain ⟨hj, rfl⟩ := getElem?_packetPayloads.1 hp
    obtain ⟨-, -, hfull, -⟩ := hpacket j hj
    exact hfull (hlen ▸ hmore)
  · rw [List.getLast?_eq_getElem?, hlen] at hp
    obtain ⟨hj, rfl⟩ := getElem?_packetPayloads.1 hp
    obtain ⟨-, -, -, hlast⟩ := hpacket _ hj
    exact hlast (by omega)
  · obtain ⟨-, hle⟩ := hsize p hp
    obtain ⟨-, hframe⟩ := length_cobsEncode_packet 0x01#8 hle
    exact ⟨_, _, exec_fcEncode_fits _ hle u, State.answer_response _ _, rfl, hframe⟩

/-- Settles O58. -/
theorem bulkPayloadLayout : Obligations.BulkPayloadLayout := by
  refine ⟨?_, by decide, by decide⟩
  rintro rows bm ⟨-, hlegal, hbm⟩
  exact ⟨length_bulkPayload hbm hlegal, rfl, slice_bulkPayload_rows bm rows, fun i r hr =>
    ⟨slice_bulkPayload_row hbm hlegal hr, bitmapRow_length hbm (hlegal r (List.mem_of_getElem? hr))⟩⟩

/-- Settles O59, outcome by outcome of Unchunk; the indices and the rows joined are the payload less its count. -/
theorem bcUnchunkResult : Obligations.BcUnchunkResult := by
  refine fun s => ⟨exec_bcUnchunk_error rfl s, fun N P => ⟨fun hN => ?_, fun hN hP => ?_, fun hN hP hillegal => ?_,
    fun hN hP hlegal => ?_⟩⟩
  · exact exec_bcUnchunk_error (unchunk_of_count hN P) s
  · exact exec_bcUnchunk_error (unchunk_of_length hN hP) s
  · exact exec_bcUnchunk_error (unchunk_of_index hN hP hillegal) s
  · rw [exec_bcUnchunk_ok (unchunk_of_legal hN hP hlegal), List.take_append_drop]
    rfl

/-- Settles O56, outcome by outcome of the checks on the row list. -/
theorem bcChunkResult : Obligations.BcChunkResult := by
  refine fun rows bm s => ⟨fun hcount hlegal => ?_, fun hcount => ?_, fun hcount hillegal => ?_⟩
  · rw [exec_bcChunk_ok (chunk_of_legal hcount hlegal bm), length_packetPayloads]
    rfl
  · exact exec_bcChunk_error (chunk_of_count hcount bm) s
  · exact exec_bcChunk_error (chunk_of_index hcount hillegal bm) s
end

section
/-! PROOFS. What the response of an operation can be (60_exceptions.md R151, R153; 30_encoding.md R66), and that every
accepted request and every sequence of operations is answered (60_exceptions.md R156). -/

namespace Sys2Proof.Machine

/-! ## Responses other than OK -/

theorem StatelessResult.eq_of_status_ne_ok {s : State} {i : Instr} {r : Response} (h : StatelessResult s i r)
    (hr : r.status ≠ .ok) : r = ⟨r.status, .invalid, 0#8, 0#16, []⟩ := by
  cases h with
  | size | remaining | drops | encode | decode | chunk | unchunk => exact absurd rfl hr
  | encodeTooLarge | decodeEmpty | decodeError | chunkError | unchunkError => rfl

/-- Where an operation does not succeed it leaves the block's state as it is, and its response holds a status alone. -/
theorem ExecResult.eq_of_status_ne_ok {s u : State} {i : Instr} {r : Response} (h : ExecResult s i u r)
    (hstateless : isStateless i = true → StatelessResult s i r) (hr : r.status ≠ .ok) :
    u = s ∧ r = ⟨r.status, .invalid, 0#8, 0#16, []⟩ := by
  cases h with
  | push | pop | readExact => exact absurd rfl hr
  | popEmpty | readShort => exact ⟨rfl, rfl⟩
  | stateless i r hi => exact ⟨rfl, (hstateless hi).eq_of_status_ne_ok hr⟩

/-! ## The statuses of an operation -/

theorem StatelessResult.status_mem {s : State} {i : Instr} {r : Response} (h : StatelessResult s i r) :
    r.status ∈ possibleStatuses i := by
  cases h with
  | size | remaining | drops | encode | decode | chunk | unchunk => exact List.mem_cons_self
  | encodeTooLarge | decodeEmpty => exact List.mem_cons_of_mem _ List.mem_cons_self
  | decodeError F e he => rcases cobsDecode_error he with rfl | rfl <;> simp [possibleStatuses]
  | chunkError rows bm e he => rcases chunk_error he with rfl | rfl <;> simp [possibleStatuses]
  | unchunkError P e he => rcases unchunk_error he with rfl | rfl | rfl <;> simp [possibleStatuses]

theorem ExecResult.status_mem {s u : State} {i : Instr} {r : Response} (h : ExecResult s i u r)
    (hstateless : isStateless i = true → StatelessResult s i r) : r.status ∈ possibleStatuses i := by
  cases h with
  | push | pop | readExact => exact List.mem_cons_self
  | popEmpty | readShort => exact List.mem_cons_of_mem _ List.mem_cons_self
  | stateless i r hi => exact (hstateless hi).status_mem

/-! ## The tag of a response -/

theorem StatelessResult.fcDecode_of_tag {s : State} {i : Instr} {r : Response} (h : StatelessResult s i r)
    (ht : r.tag ≠ .invalid) : (∃ F, i = .fcDecode F) ∧ r.status = .ok := by
  cases h with
  | decode F => exact ⟨⟨F, rfl⟩, rfl⟩
  | size | remaining | drops | encode | encodeTooLarge | decodeEmpty | decodeError | chunk | chunkError | unchunk
  | unchunkError => exact absurd rfl ht

/-- Only FC_DECODE has a tag to give. -/
theorem ExecResult.fcDecode_of_tag {s u : State} {i : Instr} {r : Response} (h : ExecResult s i u r)
    (hstateless : isStateless i = true → StatelessResult s i r) (ht : r.tag ≠ .invalid) :
    (∃ F, i = .fcDecode F) ∧ r.status = .ok := by
  cases h with
  | push | popEmpty | pop | readShort | readExact => exact absurd rfl ht
  | stateless i r hi => exact (hstateless hi).fcDecode_of_tag ht

/-! ## Every request and every operation is answered -/

/-- Under the invariant a request that is not refused gives its agent one response, and nothing else of the interface
changes. -/
theorem serveRequest_answers {s : State} {r : Request} (hs : s.Inv) (hr : decode r ≠ .error .dataLengthMismatch) :
    ∃ (u : State) (p : Response), serveRequest r s = .next (u.answer p) ∧ (∀ a, u.port a = s.port a) ∧
      u.sched = s.sched ∧ u.serving = s.serving := by
  rcases serveRequest_cases r s with ⟨i, -, hi⟩ | ⟨-, hi⟩ | ⟨hd, -⟩
  · obtain ⟨t, ht⟩ := exec_answers hs i
    obtain ⟨u, p, hu, rfl⟩ := exec_result ht
    exact ⟨u, p, hi.trans ht, hu.interface⟩
  · exact ⟨s, _, hi, fun _ => rfl, rfl, rfl⟩
  · exact absurd hd hr

theorem runOps_answers (is : List Instr) {s : State} (hs : s.Inv) :
    ∃ t rs, runOps is s = some (t, rs) ∧ rs.length = is.length ∧ t.Inv := by
  induction is generalizing s with
  | nil => exact ⟨s, [], rfl, rfl, hs⟩
  | cons i is ih =>
    obtain ⟨w, hw⟩ := exec_answers hs i
    obtain ⟨u, r, -, rfl⟩ := exec_result hw
    obtain ⟨t, rs, hrun, hlen, ht⟩ := ih (exec_inv hs hw)
    exact ⟨t, r :: rs, runOps_cons hw hrun, congrArg Nat.succ hlen, ht⟩

end Sys2Proof.Machine
end

section
/-! PROOFS. The statements of 60_exceptions.md. -/

open Sys2Proof Sys2Proof.Machine

/-- Settles O8: serving the request gives its agent a response, and of the interface nothing else changes from the state
in which the request is accepted. -/
theorem everyAcceptedRequestIsAnswered : Obligations.EveryAcceptedRequestIsAnswered := by
  intro s a r q rest hs hserve hr
  obtain ⟨u, p, hstep, hport, hsched, hserving⟩ :=
    serveRequest_answers (s := s.accepted a q rest) (State.inv_accepted.2 hs) hr
  rw [State.accepted_serving] at hserving
  refine ⟨u.answer p, p, (step_of_aboutToServe hserve).trans hstep, State.answer_resp hserving, ?_, ?_,
    fun b hb => ?_, ?_⟩
  · rw [State.answer_pending, hport, State.accepted_port_self]
  · rw [State.answer_received, hport, State.accepted_port_self]
  · rw [State.answer_port_other _ _ (hserving ▸ hb), hport, State.accepted_port_other _ _ _ hb]
  · rw [State.answer_sched, hsched, State.accepted_sched]

/-- Settles O35, by induction over the operations: each answers and keeps the invariant. -/
theorem operationsNeverStop : Obligations.OperationsNeverStop :=
  fun is _ => runOps_answers is

/-- Settles O40: an operation that does not succeed does no more than answer. -/
theorem failuresArePrecise : Obligations.FailuresArePrecise := by
  intro i s t r h hr hfail
  obtain ⟨u, r', hu, hstateless, rfl⟩ := exec_result_stateless h
  obtain rfl : r' = r := by simpa using hr
  obtain ⟨rfl, heq⟩ := hu.eq_of_status_ne_ok hstateless hfail
  exact ⟨u.sameBlock_answer r', heq⟩

/-- Settles O41, by what an operation that answers did. -/
theorem statusesPerOperation : Obligations.StatusesPerOperation := by
  intro i s t h
  obtain ⟨u, r, hu, hstateless, rfl⟩ := exec_result_stateless h
  exact ⟨r, u.answer_response r, hu.status_mem hstateless, hu.fcDecode_of_tag hstateless⟩
end

section
/-! PROOFS. The block just after the reset event (70_reset_and_hazards.md R170, R171), and that no run of pushes makes the
size smaller (R177). -/

namespace Sys2Proof.Machine

/-! ## The reset event -/

@[simp] theorem State.size_resetBlock (s : State) : s.resetBlock.size = 0 := State.size_of_cursors_eq rfl

@[simp] theorem State.remaining_resetBlock (s : State) : s.resetBlock.remaining = s.rbN - 1 := by
  rw [State.remaining, State.size_resetBlock, State.resetBlock_rbN, Nat.sub_zero]

/-- The reset event leaves the agents' lines as they are: an agent whose turn is next is about to be served. -/
theorem State.aboutToServe_resetBlock {s : State} {a : Agent} {r : Request} {q : List Request} {rest : List Turn}
    (hsched : s.sched = .reset :: .serve a :: rest) (hresp : (s.port a).resp = none)
    (hpend : (s.port a).pending = r :: q) : s.passTurn.resetBlock.aboutToServe a r q rest := by
  refine ⟨?_, ?_, ?_⟩
  · rw [State.resetBlock_sched, State.passTurn_sched, hsched, List.tail_cons]
  · rw [State.resetBlock_port, State.passTurn_port, hresp]
  · rw [State.resetBlock_port, State.passTurn_port, hpend]

/-! ## The size along a run of pushes -/

/-- A run of pushes loses no more bytes than do not fit, and the size it begins with fits. -/
theorem runOps_rbPushs_size_le (vs : List Byte) {s : State} (h : s.Inv) :
    ∃ t rs, runOps (rbPushs vs) s = some (t, rs) ∧ t.Inv ∧ s.size ≤ t.size := by
  obtain ⟨t, rs, hrun, ht, hQ, -⟩ := runOps_rbPushs vs h
  have hfits := State.size_sub_capacity h
  have hsize := congrArg List.length hQ
  rw [State.length_contents ht, List.length_drop, List.length_append, State.length_contents h] at hsize
  exact ⟨t, rs, hrun, ht, by omega⟩

end Sys2Proof.Machine
end

section
/-! PROOFS. The statements of 70_reset_and_hazards.md. -/

open Sys2Proof Sys2Proof.Machine

/-- Settles O3: the request is still first in its line, so the turn after the reset event serves it. -/
theorem pendingRequestRunsAfterReset : Obligations.PendingRequestRunsAfterReset := by
  intro s a r q rest i hsched hresp hpend hd
  have hserve := State.aboutToServe_resetBlock hsched hresp hpend
  obtain ⟨-, -, hpend'⟩ := id hserve
  exact ⟨_, _, step_of_reset hsched, hpend', stepRunsDecodedInstruction _ a r q rest i hserve hd, by simp, by simp,
    by simp, by simp, by simp, by simp⟩

/-- Settles O36: the pushes leave at least the size seen, and RB_READ_EXACT answers with the oldest `n` bytes. -/
theorem readOfASeenSizeSucceeds : Obligations.ReadOfASeenSizeSucceeds := by
  intro s vs n h hn
  obtain ⟨t, rs, hrun, ht, hle⟩ := runOps_rbPushs_size_le vs h
  have hread := hn.trans hle
  refine ⟨t, rs, _, t.contents.take n.toNat, hrun, hle, exec_rbReadExact_take ht hread, State.answer_response _ _, ?_⟩
  rw [List.length_take, State.length_contents ht, Nat.min_eq_left hread]

/-- Settles O2. -/
theorem resetEventClearsTheBlock : Obligations.ResetEventClearsTheBlock :=
  fun s _ hsched => ⟨_, step_of_reset hsched, rfl, rfl, rfl, fun _ => rfl, s.passTurn.size_resetBlock,
    s.passTurn.remaining_resetBlock, rfl⟩
end
